-- ==== Sys2Proof/Word.lean ====
section
/-! DEFINITION. The widths of the machine's values (00_scope.md R4: WORD_BITS = 24, ADDR_BITS = 29; a byte
is 8 bits, 20_memory.md R30). Every value is unsigned (00_scope.md R5). -/

namespace Sys2Proof

/-- A byte of either memory: 8 bits (20_memory.md R30). -/
abbrev Byte := BitVec 8

/-- A word of data memory: 24 bits (00_scope.md glossary, "Word"). -/
abbrev Word := BitVec 24

/-- An address field of an instruction: 29 bits (00_scope.md R4, ADDR_BITS). It is used as given: the
address it names is its value as a natural number (20_memory.md R36). -/
abbrev Addr := BitVec 29

/-- The immediate field of LOAD_CONST: 24 bits (00_scope.md R4, IMM_BITS). -/
abbrev Imm := BitVec 24

end Sys2Proof
end

