-- ==== Sys2Proof/Config.lean ====
section
/-! DEFINITION. The parameters of the machine and the values this hardware takes (00_scope.md R4). They are
configuration, not state (10_state.md R22). No value of this machine is left free (93_implementation_defined.md),
so nothing here is opaque. The widths among the parameters are in the types: WORD_BITS, ADDR_BITS and IMM_BITS in Word.lean, TAG_BITS
in Decode.lean's `Mnemonic.tag`, PC_BITS and CNT_BITS in Machine/Ports.lean; WORD_BYTES is the three byte positions of
Machine/Ops.lean's `memRead` and `memWrite`. -/

namespace Sys2Proof.Config

/-- `CODE_SIZE`: bytes of code memory (00_scope.md R4). DEDUCED from an unaudited literal, D17, log 14. -/
def codeSize : Nat := 65536

/-- `DATA_SIZE`: bytes of data memory (00_scope.md R4). Log 14. -/
def dataSize : Nat := 65536

/-- `CAP`: the instruction cap (00_scope.md R4). Log 14. -/
def cap : Nat := 1000

/-- `MAX_LEN`: bytes of the longest instruction (00_scope.md R4). -/
def maxLen : Nat := 12

/-- `PARTIAL_READ_FILL`: what a skipped byte contributes to the value of a word read. 20_memory.md R34 states 0
("bits [8*i+7 : 8*i] of v stay 0"), which is the spec's own decision D7. DEDUCED, log 7. -/
def partialReadFill : Byte := 0x00#8

end Sys2Proof.Config
end

