-- ==== Sys2Proof/Syntax.lean ====
section
/-! DEFINITION. The instruction set whole (00_scope.md R2: exactly four instructions), the decoder's result
(40_decoder.md R87, R90) and the assembler's record (30_encoding.md R64). -/

namespace Sys2Proof

/-- The four opcodes, in the source's listing order (40_decoder.md R95 numbers them 0 to 3). -/
inductive Mnemonic where
  | loadConst
  | readMem
  | writeMem
  | bitwiseOr
deriving DecidableEq, Repr

/-- The decoded instruction: one of four variants, each with exactly the fields of its opcode at their widths
(40_decoder.md R87). The roles of B, C and D differ by opcode (30_encoding.md R56). -/
inductive Instr where
  /-- LOAD_CONST: `b` is the destination address, `c` the immediate (42_load_const.md R120). -/
  | loadConst (b : Addr) (c : Imm)
  /-- READ_MEM: `b` is the destination address, `c` the source address (43_mem_copy.md R125). -/
  | readMem (b : Addr) (c : Addr)
  /-- WRITE_MEM: `b` is the source address, `c` the destination address (43_mem_copy.md R126). -/
  | writeMem (b : Addr) (c : Addr)
  /-- BITWISE_OR: `b` and `c` are the operand addresses, `d` the result address (44_bitwise_or.md R135). -/
  | bitwiseOr (b : Addr) (c : Addr) (d : Addr)
deriving DecidableEq, Repr

/-- The two ways decoding fails, and the only ones (40_decoder.md R91). -/
inductive DecodeFailure where
  /-- No opcode has the tag (40_decoder.md R83). -/
  | unknownOpcode
  /-- Fewer bytes remain than the opcode needs (40_decoder.md R84). -/
  | truncated
deriving DecidableEq, Repr

/-- What the decoder returns: the variant and the consumed byte count, or a failure (40_decoder.md R87, R90). -/
inductive DecodeResult where
  | ok (i : Instr) (len : Nat)
  | fail (f : DecodeFailure)
deriving DecidableEq, Repr

/-- One record of the assembler's input (30_encoding.md R64): an object with keys naming opcodes (a valid one
has exactly one) that maps to integers B, C and D, any of which may be missing. The integers may be negative or
too large: that is what validation refuses (R65). -/
structure Record where
  keys : List String
  b : Option Int
  c : Option Int
  d : Option Int
deriving DecidableEq, Repr

/-- Why a record is refused (30_encoding.md R65). -/
inductive ValidationError where
  /-- The record does not name exactly one recognized opcode. -/
  | notOneOpcode
  /-- A field the opcode requires is absent. -/
  | missingField
  /-- A field value is negative or does not fit the field's bit width (also R62). -/
  | outOfRange
deriving DecidableEq, Repr

end Sys2Proof
end

