-- ==== Sys2Proof/WellFormed.lean ====
section
/-! DEFINITION. Which records are instructions (30_encoding.md R62, R65). A term of `Instr` carries its fields at
their own widths, so every such term is well formed by its type (40_decoder.md R87: "LoadConst (B: 29 bits, C: 24
bits)"); what can be ill formed is a RECORD, whose integers come from outside, and the check below refuses it rather
than truncate a value (R62). -/

namespace Sys2Proof

/-- The opcode a record's key names: the four keys are lower case (30_encoding.md R64). -/
def Mnemonic.ofKey (k : String) : Option Mnemonic :=
  if k = "load_const" then some .loadConst
  else if k = "read_mem" then some .readMem
  else if k = "write_mem" then some .writeMem
  else if k = "bitwise_or" then some .bitwiseOr
  else none

/-- "every record names exactly one recognized opcode" (30_encoding.md R65). -/
def Record.opcode (r : Record) : Except ValidationError Mnemonic :=
  match r.keys with
  | [k] =>
    match Mnemonic.ofKey k with
    | some m => .ok m
    | none => .error .notOneOpcode
  | _ => .error .notOneOpcode

/-- A required field: it must be present, "a non-negative integer that fits the field's bit width"
(30_encoding.md R65; the ranges are those of R62). The value is never truncated. -/
def requireField (w : Nat) (x : Option Int) : Except ValidationError (BitVec w) :=
  match x with
  | none => .error .missingField
  | some v => if 0 ≤ v ∧ v < 2 ^ w then .ok (BitVec.ofNat w v.toNat) else .error .outOfRange

/-- The validation of one record, done before any encoding (30_encoding.md R65). A field the opcode does not have is
not looked at (log 15). -/
def Record.check (r : Record) : Except ValidationError Instr :=
  match r.opcode with
  | .error e => .error e
  | .ok .loadConst =>
    match requireField 29 r.b, requireField 24 r.c with
    | .ok b, .ok c => .ok (.loadConst b c)
    | .error e, _ => .error e
    | .ok _, .error e => .error e
  | .ok .readMem =>
    match requireField 29 r.b, requireField 29 r.c with
    | .ok b, .ok c => .ok (.readMem b c)
    | .error e, _ => .error e
    | .ok _, .error e => .error e
  | .ok .writeMem =>
    match requireField 29 r.b, requireField 29 r.c with
    | .ok b, .ok c => .ok (.writeMem b c)
    | .error e, _ => .error e
    | .ok _, .error e => .error e
  | .ok .bitwiseOr =>
    match requireField 29 r.b, requireField 29 r.c, requireField 29 r.d with
    | .ok b, .ok c, .ok d => .ok (.bitwiseOr b c d)
    | .error e, _, _ => .error e
    | .ok _, .error e, _ => .error e
    | .ok _, .ok _, .error e => .error e

/-- A record is well formed when validation accepts it. -/
def Record.wellFormed (r : Record) : Bool :=
  match r.check with
  | .ok _ => true
  | .error _ => false

end Sys2Proof
end

