-- ==== Sys2Proof/Decode.lean ====
section
/-! DEFINITION. The opcode map, the decoder block (40_decoder.md) and, after it, the encoder (30_encoding.md section 4).
Bit `k` of an instruction is bit `k mod 8` of its byte `k div 8` (00_scope.md R6). -/

namespace Sys2Proof

/-- The opcode tags: 44, 41, 11, 95 (30_encoding.md R53). -/
def Mnemonic.tag : Mnemonic → BitVec 7
  | .loadConst => 44#7
  | .readMem => 41#7
  | .writeMem => 11#7
  | .bitwiseOr => 95#7

/-- The instruction lengths in bytes: 8, 9, 9, 12 (30_encoding.md R50, R53). -/
def Mnemonic.length : Mnemonic → Nat
  | .loadConst => 8
  | .readMem => 9
  | .writeMem => 9
  | .bitwiseOr => 12

/-- The 2-bit opcode code of the ports, 0 to 3 in the source's order (40_decoder.md R95). -/
def Mnemonic.code : Mnemonic → BitVec 2
  | .loadConst => 0#2
  | .readMem => 1#2
  | .writeMem => 2#2
  | .bitwiseOr => 3#2

/-- The opcode of a decoded variant. -/
def Instr.mnemonic : Instr → Mnemonic
  | .loadConst _ _ => .loadConst
  | .readMem _ _ => .readMem
  | .writeMem _ _ => .writeMem
  | .bitwiseOr _ _ _ => .bitwiseOr

/-- The length of a decoded variant: its opcode's alone (30_encoding.md R59). -/
def Instr.length (i : Instr) : Nat := i.mnemonic.length

/-- Field B, at bits 35:7 of every format (30_encoding.md R51). -/
def Instr.fieldB : Instr → Addr
  | .loadConst b _ => b
  | .readMem b _ => b
  | .writeMem b _ => b
  | .bitwiseOr b _ _ => b

/-- Field C as a 29-bit value; bits 28:24 are 0 for LOAD_CONST (40_decoder.md R95). -/
def Instr.fieldC : Instr → BitVec 29
  | .loadConst _ c => c.setWidth 29
  | .readMem _ c => c
  | .writeMem _ c => c
  | .bitwiseOr _ c _ => c

/-- Field D, or 0 where the opcode has none (40_decoder.md R95). -/
def Instr.fieldD : Instr → BitVec 29
  | .loadConst _ _ => 0#29
  | .readMem _ _ => 0#29
  | .writeMem _ _ => 0#29
  | .bitwiseOr _ _ d => d

/-! ## The decoder (40_decoder.md R80 to R87) -/

/-- The tag of a first byte: `byte & 0x7F` (40_decoder.md R82). -/
def tagOf (first : Byte) : BitVec 7 := (first &&& 0x7F#8).setWidth 7

/-- The opcode with a given tag; none for the other 124 tags (40_decoder.md R83). -/
def mnemonicOfTag (t : BitVec 7) : Option Mnemonic :=
  if t = 44#7 then some .loadConst
  else if t = 41#7 then some .readMem
  else if t = 11#7 then some .writeMem
  else if t = 95#7 then some .bitwiseOr
  else none

/-- `buf[base] + 256*buf[base+1] + ... + 256^(n-1)*buf[base+n-1]`: the little-endian integer of `n` bytes
(40_decoder.md R85, 20_memory.md R38). -/
def leInteger (buf : Nat → Byte) (base : Nat) : Nat → Nat
  | 0 => 0
  | n + 1 => leInteger buf base n + (buf (base + n)).toNat <<< (8 * n)

/-- The field of width `w` at bits `lo + w - 1 : lo` of `v`, by shift and mask (30_encoding.md R54). -/
def bitField (v lo w : Nat) : BitVec w := BitVec.ofNat w (v >>> lo)

/-- The fields of an opcode, extracted from the instruction's integer (40_decoder.md R86). Reserved bits are not read. -/
def fieldsOf (m : Mnemonic) (v : Nat) : Instr :=
  match m with
  | .loadConst => .loadConst (bitField v 7 29) (bitField v 36 24)
  | .readMem => .readMem (bitField v 7 29) (bitField v 36 29)
  | .writeMem => .writeMem (bitField v 7 29) (bitField v 36 29)
  | .bitwiseOr => .bitwiseOr (bitField v 7 29) (bitField v 36 29) (bitField v 65 29)

/-- `Decode(buf, base, size)` (40_decoder.md R87): the byte array is `buf 0 .. buf (size - 1)`. With no byte at `base`
it fails as truncated (R90, D9, log 8). -/
def decode (buf : Nat → Byte) (base size : Nat) : DecodeResult :=
  if size ≤ base then .fail .truncated
  else
    match mnemonicOfTag (tagOf (buf base)) with
    | none => .fail .unknownOpcode
    | some m =>
      if size - base < m.length then .fail .truncated
      else .ok (fieldsOf m (leInteger buf base m.length)) m.length

/-- A list of bytes as the decoder's buffer. -/
def bufferOf (bs : List Byte) : Nat → Byte := fun k => bs.getD k 0#8

/-- The decoder on a list of bytes, from its first byte. -/
def decodeBytes (bs : List Byte) : DecodeResult := decode (bufferOf bs) 0 bs.length

/-! ## The encoder (30_encoding.md R61 to R63) -/

/-- The instruction's integer: the tag in bits 6:0 and each field in its range; reserved bits are 0
(30_encoding.md R57, R61). -/
def Instr.toInteger : Instr → Nat
  | .loadConst b c => 44 ||| b.toNat <<< 7 ||| c.toNat <<< 36
  | .readMem b c => 41 ||| b.toNat <<< 7 ||| c.toNat <<< 36
  | .writeMem b c => 11 ||| b.toNat <<< 7 ||| c.toNat <<< 36
  | .bitwiseOr b c d => 95 ||| b.toNat <<< 7 ||| c.toNat <<< 36 ||| d.toNat <<< 65

/-- The `n` bytes `v[7:0], v[15:8], ...`, little-endian (30_encoding.md R61). -/
def serialize : Nat → Nat → List Byte
  | 0, _ => []
  | n + 1, v => BitVec.ofNat 8 v :: serialize n (v >>> 8)

/-- The byte block of an instruction (30_encoding.md R61). -/
def encode (i : Instr) : List Byte := serialize i.length i.toInteger

/-- The value of one digit, in base 10 or 16. -/
def digitValue (base : Nat) (c : Char) : Option Nat :=
  let v :=
    if '0' ≤ c ∧ c ≤ '9' then c.toNat - '0'.toNat
    else if 'a' ≤ c ∧ c ≤ 'f' then c.toNat - 'a'.toNat + 10
    else if 'A' ≤ c ∧ c ≤ 'F' then c.toNat - 'A'.toNat + 10
    else base
  if v < base then some v else none

/-- The number that digits stand for, most significant first, after the value read so far. -/
def digitsValue (base : Nat) : Nat → List Char → Option Nat
  | acc, [] => some acc
  | acc, c :: cs =>
    match digitValue base c with
    | some v => digitsValue base (acc * base + v) cs
    | none => none

/-- A numeric literal of a record: "decimal or as a `0x`-prefixed hexadecimal string; both must be accepted and parsed
identically" (30_encoding.md R65). Hexadecimal digits of either case are accepted (log 15). -/
def literalValue : List Char → Option Nat
  | [] => none
  | '0' :: 'x' :: [] => none
  | '0' :: 'x' :: c :: cs => digitsValue 16 0 (c :: cs)
  | c :: cs => digitsValue 10 0 (c :: cs)

/-- The encode function on a record's values: it fails on a value that does not fit and never truncates it
(30_encoding.md R62). -/
def encodeRecord (r : Record) : Except ValidationError (List Byte) :=
  match r.check with
  | .ok i => .ok (encode i)
  | .error e => .error e

/-- The image of a program: the byte blocks one after another with nothing between them (30_encoding.md R63). -/
def image : List Instr → List Byte
  | [] => []
  | i :: is => encode i ++ image is

/-- The offset of instruction `k`: "the sum of the lengths of instructions 0 .. k-1" (30_encoding.md R63). -/
def offsetOf : List Instr → Nat → Nat
  | [], _ => 0
  | _, 0 => 0
  | i :: is, k + 1 => i.length + offsetOf is k

/-- The assembler on records, from position `k` on: it stops at the first record that validation refuses and answers its
position and the error, with no partial output (30_encoding.md R65). -/
def assembleFrom : Nat → List Record → Except (Nat × ValidationError) (List Byte)
  | _, [] => .ok []
  | k, r :: rs =>
    match encodeRecord r with
    | .error e => .error (k, e)
    | .ok bs =>
      match assembleFrom (k + 1) rs with
      | .error e => .error e
      | .ok rest => .ok (bs ++ rest)

/-- `assemble(program) -> byte stream` (30_encoding.md R63, R65); positions count from 0. -/
def assemble (rs : List Record) : Except (Nat × ValidationError) (List Byte) := assembleFrom 0 rs

/-- What the decoder reads from an instruction whose bits are `w`, of `nbits` bits, every bit above them 0: the bytes as
the hardware stores them, bit 0 the least significant bit of the first byte (00_scope.md R6), up to the longest
instruction. -/
def decodeTableWord (nbits w : Nat) : Option Instr :=
  match decodeBytes (serialize Config.maxLen (w % 2 ^ nbits)) with
  | .ok i _ => some i
  | .fail _ => none

end Sys2Proof
end

