-- ==== Sys2Proof/Machine/State.lean ====
section
/-! DEFINITION. The whole state of one machine instance (10_state.md R10, R23) as plain data, its reset value
(10_state.md R21), and the reasons a step or a load can stop. -/

namespace Sys2Proof.Machine

/-- A byte memory: (address, byte) pairs. Canonical form (`Memory.wf`): addresses strictly rising and below the
memory's size, and no entry equal to 0x00, which is what an unlisted address reads as, since both memories are
"zero-initialized" (10_state.md R21, log 18). -/
abbrev Memory := List Host.Cell

/-- Which condition set `halted` (10_state.md R15). The register and its codes are the spec's own decision D5 (log 4). -/
inductive HaltCause where
  /-- code 0, `NONE`: `halted` is false. -/
  | none
  /-- code 1, `UNKNOWN_OPCODE` (60_exceptions.md R141). -/
  | unknownOpcode
  /-- code 2, `TRUNCATED` (60_exceptions.md R142). -/
  | truncated
  /-- code 3, `CAP_REACHED` (60_exceptions.md R143). -/
  | capReached
deriving DecidableEq, Repr

/-- One trace event: the instruction's starting address and the decoded variant, that is its mnemonic and field values
(41_sequencer.md R104). -/
structure TraceEvent where
  pc : Nat
  instr : Instr
deriving DecidableEq, Repr

/-- The state (10_state.md R10). `pc` and `instructionsExecuted` are natural numbers, as R12 and R14 allow (log 3).
`trace` is the model's own field: the machine's output stream so far, oldest first (41_sequencer.md R104; R22 of
10_state.md says it is no state of the machine and is never read back, log 2). -/
structure State where
  pc : Nat
  halted : Bool
  instructionsExecuted : Nat
  haltCause : HaltCause
  code : Memory
  data : Memory
  trace : List TraceEvent
deriving DecidableEq, Repr

/-- The faults of the machine: NONE. "So no instruction can raise anything once decoded" (60_exceptions.md R151), a
decode error and the cap are halts, that is next states (R140, R147), and the fourth end of a run leaves the state as
it is (41_sequencer.md R109). Nobody raises a fault; that is safe, since there is nothing to raise. -/
inductive Fault where
deriving DecidableEq, Repr

/-- The refusals. -/
inductive Refusal where
  /-- An instruction without a meaning. Nobody raises it: every arm of `exec` has a meaning. Safe. -/
  | notModelled (mnemonic : String)
  /-- "Capacity error": an image longer than code memory (70_reset_and_hazards.md R173). Raised by `loadImage` only,
  never by `step`: "execution never begins" and "no machine state is defined for such a load". Safe (log 9). -/
  | capacityError
deriving DecidableEq, Repr

/-- The state at machine start, the only reset there is (10_state.md R21, 70_reset_and_hazards.md R170): no value is
unspecified. Both memories are all 0x00, that is, nothing listed; the image is loaded by `loadImage`. -/
def State.reset : State :=
  { pc := 0
    halted := false
    instructionsExecuted := 0
    haltCause := .none
    code := []
    data := []
    trace := [] }

end Sys2Proof.Machine
end

