-- ==== Sys2Proof/Machine/Ops.lean ====
section
/-! DEFINITION. The named operations over the two memories (20_memory.md) and the sequencer's parts of a step
(41_sequencer.md R100 to R107): fetch, trace, advance, and taking a halt (60_exceptions.md R147). The count and the cap are in
Flags.lean. -/

namespace Sys2Proof.Machine

/-! ## One byte of a memory -/

/-- The byte at an address: the listed one, else 0x00 (10_state.md R21: "zero-initialized"). -/
def Memory.read : Memory → Nat → Byte
  | [], _ => 0x00#8
  | (k, x) :: rest, a => if k = a then x else Memory.read rest a

/-- A memory without an address's entry. -/
def Memory.erase (m : Memory) (a : Nat) : Memory := m.filter (fun c => c.1 ≠ a)

/-- An entry put at its place among rising addresses. -/
def Memory.insert : Memory → Nat → Byte → Memory
  | [], a, v => [(a, v)]
  | (k, x) :: rest, a, v => if a < k then (a, v) :: (k, x) :: rest else (k, x) :: Memory.insert rest a v

/-- Store one byte. Storing 0x00 removes the entry, so that equal memories are equal lists. -/
def Memory.write (m : Memory) (a : Nat) (v : Byte) : Memory :=
  if v = 0x00#8 then Memory.erase m a else Memory.insert (Memory.erase m a) a v

/-- The canonical form of a memory of `size` bytes: addresses strictly rising, none at or beyond the size (20_memory.md
R30), and no entry equal to what an unlisted address reads as. -/
abbrev Memory.wf (size : Nat) (m : Memory) : Prop :=
  m.Pairwise (fun c d => c.1 < d.1) ∧ ∀ c ∈ m, c.1 < size ∧ c.2 ≠ 0x00#8

/-- Store a list of bytes from an address on, leaving out those at or beyond `size`. -/
def Memory.storeBytes (size : Nat) : Memory → Nat → List Byte → Memory
  | m, _, [] => m
  | m, a, v :: vs => Memory.storeBytes size (if a < size then Memory.write m a v else m) (a + 1) vs

/-! ## The word accesses of data memory (20_memory.md R34, R35) -/

/-- Byte `i` of a word: `w[8*i+7 : 8*i]`, little-endian (20_memory.md R32). -/
def wordByte (v : Word) (i : Nat) : Byte := v.extractLsb' (8 * i) 8

/-- A byte position of a word read: the byte of data memory where the address is in bounds; a skipped position
contributes `PARTIAL_READ_FILL`, 0 (20_memory.md R34, D7, log 7). -/
def dataByte (m : Memory) (a : Nat) : Byte :=
  if a < Config.dataSize then Memory.read m a else Config.partialReadFill

/-- `MemRead(A, 3)` (20_memory.md R34). The three addresses are natural numbers and never wrap (D16, log 13). -/
def memRead (m : Memory) (a : Nat) : Word :=
  (dataByte m a).setWidth 24 ||| ((dataByte m (a + 1)).setWidth 24 <<< 8) ||| ((dataByte m (a + 2)).setWidth 24 <<< 16)

/-- A byte position of a word write: stored where in bounds, else no memory changes for it (20_memory.md R35). -/
def writeDataByte (m : Memory) (a : Nat) (v : Byte) : Memory :=
  if a < Config.dataSize then Memory.write m a v else m

/-- `MemWrite(A, 3, v)` (20_memory.md R35). -/
def memWrite (m : Memory) (a : Nat) (v : Word) : Memory :=
  writeDataByte (writeDataByte (writeDataByte m a (wordByte v 0)) (a + 1) (wordByte v 1)) (a + 2) (wordByte v 2)

/-- An instruction's result stored to data memory: nothing but data memory changes, and code memory cannot be reached
(20_memory.md R35, R44). -/
def storeWord (a : Nat) (v : Word) (s : State) : State := { s with data := memWrite s.data a v }

/-! ## The sequencer's parts of a step -/

/-- The machine is running: "`halted = false` and `pc < CODE_SIZE`" (41_sequencer.md R100). -/
def State.running (s : State) : Bool := !s.halted && decide (s.pc < Config.codeSize)

/-- Fetch and decode: `Decode(code, pc, CODE_SIZE)`; the buffer is the whole of code memory (41_sequencer.md R101,
D8, log 8). A fetch changes no state (20_memory.md R38). -/
def fetch (s : State) : DecodeResult := decode (Memory.read s.code) s.pc Config.codeSize

/-- `emit Trace(pc, instr)`, with the value of `pc` before the advance (41_sequencer.md R104, D12, log 2). -/
def emitTrace (i : Instr) (s : State) : State := { s with trace := s.trace ++ [{ pc := s.pc, instr := i }] }

/-- `pc <- pc + len` (10_state.md R11, 41_sequencer.md R105): a sum of natural numbers without wrap (44_bitwise_or.md
R136). -/
def advance (len : Nat) (s : State) : State := { s with pc := s.pc + len }

/-! ## Taking a halt: the machine's only exception mechanism. There is no return from it (60_exceptions.md R149), so no operation
clears `halted`. -/

/-- Taking a halt: it "writes `halted <- true` and `halt_cause`, and nothing else" (60_exceptions.md R147). -/
def haltEntry (cause : HaltCause) (s : State) : State := { s with halted := true, haltCause := cause }

/-- The cause a decode failure is recorded under (41_sequencer.md R102, 10_state.md R15). -/
def causeOf : DecodeFailure → HaltCause
  | .unknownOpcode => .unknownOpcode
  | .truncated => .truncated

/-! ## The host's load (70_reset_and_hazards.md R172, R173) -/

/-- The state in which a run of an image starts: the reset state with the image at the start of code memory. An image
longer than code memory is refused whole, and nothing is truncated to fit (log 9). -/
def loadImage (img : List Byte) : Host.Outcome State Fault Refusal :=
  if img.length ≤ Config.codeSize then
    .next { State.reset with code := Memory.storeBytes Config.codeSize [] 0 img }
  else .refused .capacityError

end Sys2Proof.Machine
end

