-- ==== Sys2Proof/Machine/Flags.lean ====
section
/-! DEFINITION. The machine has no flags and no condition codes (10_state.md R19). Its status registers are `halted`,
`halt_cause` and `instructions_executed` (10_state.md R13 to R15); the count, the cap and the end of an instruction are here
(41_sequencer.md R105, R106), taking a halt stands in Ops.lean (60_exceptions.md R147). -/

namespace Sys2Proof.Machine

/-- The number of a cause (10_state.md R15; arbitrary numbers of the spec, D5, log 4). -/
def HaltCause.toCode : HaltCause → BitVec 2
  | .none => 0#2
  | .unknownOpcode => 1#2
  | .truncated => 2#2
  | .capReached => 3#2

/-- `instructions_executed <- instructions_executed + 1` (41_sequencer.md R105), a natural number (44_bitwise_or.md R136). -/
def countOne (s : State) : State := { s with instructionsExecuted := s.instructionsExecuted + 1 }

/-- The cap check after the increment: at `instructions_executed >= CAP` the machine halts with `CAP_REACHED`
(41_sequencer.md R106, C1, D4, log 5). -/
def capCheck (s : State) : State :=
  if Config.cap ≤ s.instructionsExecuted then haltEntry .capReached s else s

/-- What every executed instruction does after its effect on data memory, in the step's order: trace, advance, count, cap
check (41_sequencer.md R107). -/
def retire (i : Instr) (s : State) : Host.Outcome State Fault Refusal :=
  .next (capCheck (countOne (advance i.length (emitTrace i s))))

end Sys2Proof.Machine
end

