-- ==== Sys2Proof/Machine/Operands.lean ====
section
/-! DEFINITION. The operand forms, all of them (30_encoding.md R56, R66): the 24-bit immediate, and a word of data memory
at an absolute byte address. No register operand exists (10_state.md R18). And the roles of the fields: which
addresses an instruction reads and writes (20_memory.md R39). -/

namespace Sys2Proof.Machine

/-- The value of the immediate operand: the 24 bits as they stand, neither extended nor shifted (42_load_const.md R120). -/
def immediateOperand (c : Imm) : Word := c

/-- The value of a memory operand: the word at the address, used as given (20_memory.md R36). -/
def memoryOperand (a : Addr) (s : State) : Word := memRead s.data a.toNat

/-- The words an instruction reads, in the order of its fields (30_encoding.md R56). -/
def sourceAddrs : Instr → List Addr
  | .loadConst _ _ => []
  | .readMem _ c => [c]
  | .writeMem b _ => [b]
  | .bitwiseOr b c _ => [b, c]

/-- The word an instruction writes (30_encoding.md R56): field B of LOAD_CONST and READ_MEM, C of WRITE_MEM, D of BITWISE_OR. -/
def destAddr : Instr → Addr
  | .loadConst b _ => b
  | .readMem b _ => b
  | .writeMem _ c => c
  | .bitwiseOr _ _ d => d

/-- The word an instruction computes (30_encoding.md R56): what the data write port carries (41_sequencer.md R115). -/
def resultWord (i : Instr) (s : State) : Word :=
  match i with
  | .loadConst _ c => immediateOperand c
  | .readMem _ c => memoryOperand c s
  | .writeMem b _ => memoryOperand b s
  | .bitwiseOr b c _ => memoryOperand b s ||| memoryOperand c s

/-- The byte addresses a word access reaches: those of `A, A+1, A+2` in bounds (20_memory.md R34, R35). An address at or
above `DATA_SIZE` makes no access (41_sequencer.md R115). -/
def accessedBytes (a : Addr) : List Nat :=
  [a.toNat, a.toNat + 1, a.toNat + 2].filter (fun k => k < Config.dataSize)

/-- The byte addresses an instruction reads: at most six (70_reset_and_hazards.md R182). -/
def bytesRead (i : Instr) : List Nat := (sourceAddrs i).flatMap accessedBytes

/-- The byte addresses an instruction writes: at most three (70_reset_and_hazards.md R182). -/
def bytesWritten (i : Instr) : List Nat := accessedBytes (destAddr i)

end Sys2Proof.Machine
end

