-- ==== Sys2Proof/Machine/BitwiseOr.lean ====
section
/-! DEFINITION. BITWISE_OR (44_bitwise_or.md), the only instruction that computes (R136). Both words are read before the
write (R135, D10, log 10). -/

namespace Sys2Proof.Machine

/-- BITWISE_OR B, C, D: `MemWrite(D, 3, MemRead(B, 3) | MemRead(C, 3))` (44_bitwise_or.md R135). -/
def execBitwiseOr (b c d : Addr) (s : State) : Host.Outcome State Fault Refusal :=
  retire (.bitwiseOr b c d) (storeWord d.toNat (memoryOperand b s ||| memoryOperand c s) s)

end Sys2Proof.Machine
end

