-- ==== Sys2Proof/Machine/LoadConst.lean ====
section
/-! DEFINITION. LOAD_CONST (42_load_const.md). -/

namespace Sys2Proof.Machine

/-- LOAD_CONST B, C: `MemWrite(B, 3, C)` (42_load_const.md R120, R121). -/
def execLoadConst (b : Addr) (c : Imm) (s : State) : Host.Outcome State Fault Refusal :=
  retire (.loadConst b c) (storeWord b.toNat (immediateOperand c) s)

end Sys2Proof.Machine
end

