-- ==== Sys2Proof/Machine/MemCopy.lean ====
section
/-! DEFINITION. READ_MEM and WRITE_MEM (43_mem_copy.md). The whole source word is read before any byte is written (R128,
D10, log 10). The two differ in which field is the source, on purpose (R127). -/

namespace Sys2Proof.Machine

/-- READ_MEM B, C: `v <- MemRead(C, 3); MemWrite(B, 3, v)` (43_mem_copy.md R125). -/
def execReadMem (b c : Addr) (s : State) : Host.Outcome State Fault Refusal :=
  retire (.readMem b c) (storeWord b.toNat (memoryOperand c s) s)

/-- WRITE_MEM B, C: `v <- MemRead(B, 3); MemWrite(C, 3, v)` (43_mem_copy.md R126). -/
def execWriteMem (b c : Addr) (s : State) : Host.Outcome State Fault Refusal :=
  retire (.writeMem b c) (storeWord c.toNat (memoryOperand b s) s)

end Sys2Proof.Machine
end

