-- ==== Sys2Proof/Machine/Step.lean ====
section
/-! DEFINITION. The whole step (41_sequencer.md R107) and the placing of an instruction where it fetches. -/

namespace Sys2Proof.Machine

/-- The step of 41_sequencer.md R107. A machine that is not running "has no step and its state never changes again" (R100):
the model answers the same state (log 1). -/
def step (s : State) : Host.Outcome State Fault Refusal :=
  if s.running then
    match fetch s with
    | .fail f => .next (haltEntry (causeOf f) s)
    | .ok i _ => exec i s
  else .next s

/-- `s` with the instruction whose bits are `w` (`nbits` of them, the bits above 0, up to the longest instruction) in code
memory at `pc`, where `step` fetches. It stands for the host's load of an image that has the instruction there
(70_reset_and_hazards.md R172, log 9). -/
def State.withFetchWord (s : State) (nbits w : Nat) : State :=
  { s with code := Memory.storeBytes Config.codeSize s.code s.pc (serialize Config.maxLen (w % 2 ^ nbits)) }

end Sys2Proof.Machine
end

