-- ==== Sys2Proof/Machine/Ports.lean ====
section
/-! DEFINITION. The two blocks at signal level (40_decoder.md R95, 41_sequencer.md R115, both the spec's own framing, D11 and
D13, log 11), the host's permission to step (R114) and what the host reads (70_reset_and_hazards.md R177). All are functions
of the state; no rule depends on them. -/

namespace Sys2Proof.Machine

/-! ## The decoder block (40_decoder.md R95) -/

/-- Byte `k` of the 96-bit window, at bits `8k+7 : 8k`. -/
def winByte (win : BitVec 96) (k : Nat) : Byte := win.extractLsb' (8 * k) 8

/-- The outputs of the decoder block. -/
structure DecoderPorts where
  status : BitVec 2
  op : BitVec 2
  tag : BitVec 7
  b : BitVec 29
  c : BitVec 29
  d : BitVec 29
  len : BitVec 4
deriving DecidableEq, Repr

/-- `op` of the tag in the window. It means something only under status OK or TRUNCATED; elsewhere, and with no byte in the
window, it is 0 (log 11). -/
def opPort (win : BitVec 96) (avail : BitVec 17) : BitVec 2 :=
  if avail = 0#17 then 0#2
  else
    match mnemonicOfTag (tagOf (winByte win 0)) with
    | some m => m.code
    | none => 0#2

/-- The decoder block as a combinational function of `win` and `avail` (40_decoder.md R95). Unused outputs are 0 (D11). -/
def decoderPorts (win : BitVec 96) (avail : BitVec 17) : DecoderPorts :=
  match decode (winByte win) 0 avail.toNat with
  | .ok i len =>
    { status := 0#2, op := opPort win avail, tag := win.extractLsb' 0 7
      b := i.fieldB, c := i.fieldC, d := i.fieldD, len := BitVec.ofNat 4 len }
  | .fail f =>
    { status := (causeOf f).toCode, op := opPort win avail, tag := win.extractLsb' 0 7
      b := 0#29, c := 0#29, d := 0#29, len := 0#4 }

/-! ## The sequencer block (41_sequencer.md R115) -/

/-- The code read port's data: the 12 bytes from `pc` on; a byte beyond code memory carries 0 (any value would do, R95). -/
def codeWindow (s : State) : BitVec 96 :=
  BitVec.ofNat 96 (leInteger (Memory.read s.code) s.pc Config.maxLen)

/-- `avail = CODE_SIZE - pc`. -/
def availPort (s : State) : BitVec 17 := BitVec.ofNat 17 (Config.codeSize - s.pc)

/-- The trace event's signals. -/
structure TracePorts where
  valid : Bool
  pc : BitVec 17
  op : BitVec 2
  b : BitVec 29
  c : BitVec 29
  d : BitVec 29
deriving DecidableEq, Repr

/-- The sequencer's ports. The data ports are the byte accesses of the step, each an address and a byte; an address at or
above `DATA_SIZE` makes no access. -/
structure SequencerPorts where
  codeAddr : BitVec 16
  codeWin : BitVec 96
  avail : BitVec 17
  dataReads : List (BitVec 30 × Byte)
  dataWrites : List (BitVec 30 × Byte)
  trace : TracePorts
  pc : BitVec 17
  halted : Bool
  haltCause : BitVec 2
  instructionsExecuted : BitVec 10
  running : Bool
deriving DecidableEq, Repr

/-- The instruction that the step about to be taken executes, if there is one. -/
def pendingInstr (stepEnable : Bool) (s : State) : Option Instr :=
  if stepEnable && s.running then
    match fetch s with
    | .ok i _ => some i
    | .fail _ => none
  else none

/-- The event's signals: `trace_op` uses the codes of 40_decoder.md R95, `trace_D` is 0 unless BITWISE_OR and
`trace_C[28:24]` is 0 for LOAD_CONST; with no event all are 0 (log 11). -/
def tracePorts (s : State) : Option Instr → TracePorts
  | some i =>
    { valid := true, pc := BitVec.ofNat 17 s.pc, op := i.mnemonic.code, b := i.fieldB, c := i.fieldC, d := i.fieldD }
  | none => { valid := false, pc := 0#17, op := 0#2, b := 0#29, c := 0#29, d := 0#29 }

/-- The byte reads of an instruction's `MemRead`s. -/
def readPort (s : State) (i : Instr) : List (BitVec 30 × Byte) :=
  (bytesRead i).map (fun a => (BitVec.ofNat 30 a, Memory.read s.data a))

/-- The byte writes of an instruction's `MemWrite`. -/
def writePort (s : State) (i : Instr) : List (BitVec 30 × Byte) :=
  (bytesWritten i).map (fun a => (BitVec.ofNat 30 a, wordByte (resultWord i s) (a - (destAddr i).toNat)))

/-- The sequencer block's outputs in a state, with the host's `step_enable` given (41_sequencer.md R115). DESIGN CHOICE (log 11):
R115 does not say what the 16-bit code address shows where the machine is stopped at `pc` = 65536, whose 17 bits do not fit.
The model shows the low 16 bits of `pc`, so the address is 0 there, while `codeWin` shows the filler of the 12 bytes from 65536 on. -/
def sequencerPorts (stepEnable : Bool) (s : State) : SequencerPorts :=
  { codeAddr := BitVec.ofNat 16 s.pc
    codeWin := codeWindow s
    avail := availPort s
    dataReads := (pendingInstr stepEnable s).elim [] (readPort s)
    dataWrites := (pendingInstr stepEnable s).elim [] (writePort s)
    trace := tracePorts s (pendingInstr stepEnable s)
    pc := BitVec.ofNat 17 s.pc
    halted := s.halted
    haltCause := s.haltCause.toCode
    instructionsExecuted := BitVec.ofNat 10 s.instructionsExecuted
    running := s.running }

/-- The step under the host's permission: "with it low a running machine holds its state" (41_sequencer.md R115, R114). -/
def tick (stepEnable : Bool) (s : State) : Host.Outcome State Fault Refusal :=
  if stepEnable then step s else .next s

/-! ## What the host reads after a run (70_reset_and_hazards.md R177) -/

/-- The final program counter, the total of instructions executed, the two halt registers the spec also exposes, and the bytes
of a range of data memory. -/
structure Report where
  pc : Nat
  instructionsExecuted : Nat
  halted : Bool
  haltCause : HaltCause
  dump : List Byte
deriving DecidableEq, Repr

/-- The report for the range `[lo, hi)`, by default `[0, 256)` (70_reset_and_hazards.md R177). Its printed form is outside the
hardware. DESIGN CHOICE (log 19): R177 does not say what a range that goes past `DATA_SIZE`, or one with `lo > hi`, gives. The
model makes no bound test, so a byte at or beyond 65536 reads as an unlisted one, 0x00, in every memory that meets `Memory.wf`;
and `lo > hi` gives an empty dump. -/
def hostReport (s : State) (lo : Nat := 0) (hi : Nat := 256) : Report :=
  { pc := s.pc
    instructionsExecuted := s.instructionsExecuted
    halted := s.halted
    haltCause := s.haltCause
    dump := (List.range (hi - lo)).map (fun k => Memory.read s.data (lo + k)) }

end Sys2Proof.Machine
end

