-- ==== Sys2Proof/Safety.lean ====
section
/-! DEFINITION. The terms the claims are stated in: what every state of a run satisfies, how the trace fits the code and the
data memory, and when two states or two byte buffers agree on what matters. -/

namespace Sys2Proof.Machine

/-! ## Invariants -/

/-- What every step keeps, from any state that has it. -/
structure State.Inv (s : State) : Prop where
  /-- Code memory is canonical and has 65536 bytes (10_state.md R16). -/
  code_wf : Memory.wf Config.codeSize s.code
  /-- Data memory is canonical and has 65536 bytes (10_state.md R17). -/
  data_wf : Memory.wf Config.dataSize s.data
  /-- "`pc` takes values from 0 to `CODE_SIZE` = 65536 inclusive" (10_state.md R12). -/
  pc_le : s.pc ≤ Config.codeSize
  /-- "Its largest value is `CAP` = 1000" (10_state.md R14). -/
  count_le : s.instructionsExecuted ≤ Config.cap
  /-- `halt_cause` is NONE exactly while `halted` is false (10_state.md R15). -/
  halted_iff : s.halted = true ↔ s.haltCause ≠ .none
  /-- CAP_REACHED exactly when the count is CAP (60_exceptions.md R143). -/
  cap_iff : s.haltCause = .capReached ↔ s.instructionsExecuted = Config.cap

/-- The events from code offset `p` on follow one another to offset `q`: each starts where the one before ended, and is what
the decoder reads there (41_sequencer.md R104, R105, R110). -/
def FollowsCode (code : Memory) : Nat → List TraceEvent → Nat → Prop
  | p, [], q => p = q
  | p, e :: es, q =>
    e.pc = p ∧ decode (Memory.read code) p Config.codeSize = .ok e.instr e.instr.length ∧
      FollowsCode code (p + e.instr.length) es q

/-- An instruction's effect on data memory alone (41_sequencer.md R103's table). -/
def effect (i : Instr) (m : Memory) : Memory :=
  match i with
  | .loadConst b c => memWrite m b.toNat c
  | .readMem b c => memWrite m b.toNat (memRead m c.toNat)
  | .writeMem b c => memWrite m c.toNat (memRead m b.toNat)
  | .bitwiseOr b c d => memWrite m d.toNat (memRead m b.toNat ||| memRead m c.toNat)

/-- The effects of the events of a trace, oldest first. -/
def replay : List TraceEvent → Memory → Memory
  | [], m => m
  | e :: es, m => replay es (effect e.instr m)

/-- The history of a run from machine start: the trace leads from offset 0 to `pc`, one event per counted instruction, and data
memory is what its effects make of the all-zero memory (41_sequencer.md R104, R108, 70_reset_and_hazards.md R174). -/
structure State.History (s : State) : Prop where
  follows : FollowsCode s.code 0 s.trace s.pc
  counts : s.trace.length = s.instructionsExecuted
  replays : s.data = replay s.trace []
  /-- The halt that a run from machine start never meets (41_sequencer.md R112). -/
  not_truncated : s.haltCause ≠ .truncated

/-! ## Agreement -/

/-- The two states differ at most in data memory. -/
structure SameButData (s t : State) : Prop where
  pc : s.pc = t.pc
  halted : s.halted = t.halted
  count : s.instructionsExecuted = t.instructionsExecuted
  cause : s.haltCause = t.haltCause
  code : s.code = t.code
  trace : s.trace = t.trace

/-- The bits of an instruction's last byte that belong to a field; the others are reserved: 63:60, 71:65, 95:94
(30_encoding.md R55, R57). -/
def fieldBitsOfLastByte : Mnemonic → Byte
  | .loadConst => 0x0F#8
  | .readMem => 0x01#8
  | .writeMem => 0x01#8
  | .bitwiseOr => 0x3F#8

/-- Two buffers hold, from `base` on, the bytes of one instruction of opcode `m`, alike but for its reserved bits. -/
def AlikeButReserved (m : Mnemonic) (base : Nat) (buf buf' : Nat → Byte) : Prop :=
  (∀ k, k + 1 < m.length → buf' (base + k) = buf (base + k)) ∧
    buf' (base + (m.length - 1)) &&& fieldBitsOfLastByte m = buf (base + (m.length - 1)) &&& fieldBitsOfLastByte m

/-- A byte of data memory as the word accesses see it: what lies at or beyond 65536 reads as 0 (20_memory.md R34, D7, log 7). -/
def byteOrZero (m : Memory) (a : Nat) : Byte := if a < 65536 then Memory.read m a else 0x00#8

/-- The value of byte `k` of a 24-bit immediate: bits `8k+7 : 8k` (20_memory.md R32). -/
def immByte (c : Imm) (k : Nat) : Byte := BitVec.ofNat 8 (c.toNat / 2 ^ (8 * k))

/-- The three bytes from `dst` on that lie below 65536 hold `bytes 0, 1, 2`, and every other address of data memory reads as it
did (20_memory.md R35). -/
def WritesWord (dst : Nat) (bytes : Nat → Byte) (before after : Memory) : Prop :=
  ∀ a, Memory.read after a =
    if dst ≤ a ∧ a < dst + 3 ∧ a < 65536 then bytes (a - dst) else Memory.read before a

/-- Everything an executed instruction does beside its effect on data memory (41_sequencer.md R104 to R106): the event, the advance
by the instruction's length, the count, and the cap, reached at 1000 (D4, log 5). Code memory is as it was. -/
structure Retires (i : Instr) (len : Nat) (s t : State) : Prop where
  pc : t.pc = s.pc + len
  count : t.instructionsExecuted = s.instructionsExecuted + 1
  trace : t.trace = s.trace ++ [{ pc := s.pc, instr := i }]
  code : t.code = s.code
  at_cap : 1000 ≤ s.instructionsExecuted + 1 → t.halted = true ∧ t.haltCause = .capReached
  below_cap : s.instructionsExecuted + 1 < 1000 → t.halted = s.halted ∧ t.haltCause = s.haltCause

/-- The tag of a first byte as a number: its low seven bits (40_decoder.md R82). -/
def tagNumber (first : Byte) : Nat := first.toNat % 128

/-- The byte stands for an opcode of `len` bytes (30_encoding.md R53's table). -/
def TagWithLength (first : Byte) (len : Nat) : Prop :=
  (tagNumber first = 44 ∧ len = 8) ∨ (tagNumber first = 41 ∧ len = 9) ∨ (tagNumber first = 11 ∧ len = 9) ∨
    (tagNumber first = 95 ∧ len = 12)

/-- The bytes of an instruction's encoding stand in a buffer from `base` on. -/
def HoldsEncoding (buf : Nat → Byte) (base : Nat) (i : Instr) : Prop :=
  ∀ k, k < i.length → buf (base + k) = (encode i).getD k 0x00#8

/-- `k` steps of the machine, by the host's runner. -/
def runFor (k : Nat) (s : State) : Host.Outcome State Fault Refusal := Host.Core.run Sys2Proof.core k s

end Sys2Proof.Machine
end

