-- ==== Sys2Proof/Certificates/Slice0/Obligations.lean ====
section
/-! DEFINITION. The statements for the provers. Each docstring names the rules of spec/ it formalises, and, where a clause rests on
a decision of the spec (D<n> of 92_eei_decisions.md) or on a choice of the model, the log entry that says so. -/

open Sys2Proof Sys2Proof.Machine

/-! ## Encoding and decoding -/

/-- A few words written out from 30_encoding.md R51 and R53 (95_test_vectors.md B1 rows 5, 13, 19, 25, B2 rows 1, 3, 8): what the
decoder reads from them. -/
def Obligations.SpecWordsDecodeAsTheSpecSays : Prop :=
  decodeBytes [0x2C, 0x05, 0x00, 0x00, 0xE0, 0xCD, 0xAB, 0x00] = .ok (.loadConst 10 0x0ABCDE) 8 ∧
  decodeBytes [0x2C, 0x05, 0x00, 0x00, 0xE0, 0xCD, 0xAB, 0xF0] = .ok (.loadConst 10 0x0ABCDE) 8 ∧
  decodeBytes [0xA9, 0xB3, 0xA2, 0x91, 0xF0, 0xDE, 0xBC, 0x0A, 0x00] = .ok (.readMem 0x1234567 0x0ABCDEF) 9 ∧
  decodeBytes [0x29, 0x0A, 0x00, 0x00, 0xA0, 0x00, 0x00, 0x00, 0x01] = .ok (.readMem 20 0x1000000A) 9 ∧
  decodeBytes [0x8B, 0xB3, 0xA2, 0x91, 0xF0, 0xDE, 0xBC, 0x0A, 0x00] = .ok (.writeMem 0x1234567 0x0ABCDEF) 9 ∧
  decodeBytes [0xDF, 0xB3, 0xA2, 0x91, 0xF0, 0xDE, 0xBC, 0x0A, 0xAA, 0xAA, 0xAA, 0x02] =
    .ok (.bitwiseOr 0x1234567 0x0ABCDEF 0x1555555) 12 ∧
  decodeBytes [0x80] = .fail .unknownOpcode

/-- 40_decoder.md R82: the tag is the low seven bits of the byte at the base offset, and bit 7 of that byte takes no part in selecting the
opcode: with it flipped, decoding fails as before or yields the same opcode and consumes the same bytes. -/
def Obligations.TagIsTheLowSevenBits : Prop :=
  (∀ first : Byte, (tagOf first).toNat = first.toNat &&& 0x7F) ∧
  (∀ (buf : Nat → Byte) (base size : Nat),
    let flipped := fun k => if k = base then buf k ^^^ 0x80#8 else buf k
    (∀ f, decode buf base size = .fail f → decode flipped base size = .fail f) ∧
    (∀ i len, decode buf base size = .ok i len →
      ∃ i', decode flipped base size = .ok i' len ∧ i'.mnemonic = i.mnemonic ∧ (tagOf (buf base)) = i.mnemonic.tag))

/-- 40_decoder.md R83: with a byte to read, decoding fails with unknown opcode exactly when the tag is none of the four. -/
def Obligations.UnknownOpcodeExactlyOffTheTable : Prop :=
  ∀ (buf : Nat → Byte) (base size : Nat), base < size →
    (decode buf base size = .fail .unknownOpcode ↔
      tagNumber (buf base) ≠ 44 ∧ tagNumber (buf base) ≠ 41 ∧ tagNumber (buf base) ≠ 11 ∧ tagNumber (buf base) ≠ 95)

/-- 40_decoder.md R84: after the tag, the length. A known opcode fails as truncated exactly when fewer bytes remain than its
length, and is decoded, consuming its length, exactly when they do not; an instruction that ends at the buffer's end is not
truncated. -/
def Obligations.TruncatedExactlyWhenTooShort : Prop :=
  ∀ (buf : Nat → Byte) (base size : Nat), base < size →
    (decode buf base size = .fail .truncated ↔ ∃ len, TagWithLength (buf base) len ∧ size - base < len) ∧
    (∀ n, (∃ i, decode buf base size = .ok i n) ↔ TagWithLength (buf base) n ∧ n ≤ size - base)

/-- 30_encoding.md R55, R56: for each of the four tags, with its length inside the buffer, decoding yields the opcode's variant and consumes its
length, and the fields are the byte formulas of R55: B from bytes 0 to 4, C from bytes 4 to 7 (LOAD_CONST, 24 bits) or 4 to 8 (29 bits),
D from bytes 8 to 11. -/
def Obligations.FieldsComeFromTheBytesOfTheTable : Prop :=
  ∀ (buf : Nat → Byte) (base size : Nat),
    let x := fun k => (buf (base + k)).toNat
    let fieldB := x 0 / 128 + x 1 * 2 + x 2 * 2 ^ 9 + x 3 * 2 ^ 17 + x 4 % 16 * 2 ^ 25
    let immC := x 4 / 16 + x 5 * 2 ^ 4 + x 6 * 2 ^ 12 + x 7 % 16 * 2 ^ 20
    let fieldC := x 4 / 16 + x 5 * 2 ^ 4 + x 6 * 2 ^ 12 + x 7 * 2 ^ 20 + x 8 % 2 * 2 ^ 28
    let fieldD := x 8 / 2 + x 9 * 2 ^ 7 + x 10 * 2 ^ 15 + x 11 % 64 * 2 ^ 23
    (x 0 % 128 = 44 → base + 8 ≤ size →
      ∃ (b : Addr) (c : Imm), decode buf base size = .ok (.loadConst b c) 8 ∧ b.toNat = fieldB ∧ c.toNat = immC) ∧
    (x 0 % 128 = 41 → base + 9 ≤ size →
      ∃ b c : Addr, decode buf base size = .ok (.readMem b c) 9 ∧ b.toNat = fieldB ∧ c.toNat = fieldC) ∧
    (x 0 % 128 = 11 → base + 9 ≤ size →
      ∃ b c : Addr, decode buf base size = .ok (.writeMem b c) 9 ∧ b.toNat = fieldB ∧ c.toNat = fieldC) ∧
    (x 0 % 128 = 95 → base + 12 ≤ size →
      ∃ b c d : Addr, decode buf base size = .ok (.bitwiseOr b c d) 12 ∧ b.toNat = fieldB ∧ c.toNat = fieldC ∧
        d.toNat = fieldD)

/-- 40_decoder.md R85, R92: the result depends on the bytes the decoder consumes (on a failure, on the first byte) and on how many
remain, and on nothing else: not on where they lie, nor on any byte after them. -/
def Obligations.OnlyConsumedBytesDecideTheResult : Prop :=
  ∀ (buf buf' : Nat → Byte) (base base' size size' : Nat), base < size → base' < size' → size - base = size' - base' →
    (∀ f, buf base = buf' base' → decode buf base size = .fail f → decode buf' base' size' = .fail f) ∧
    (∀ i len, (∀ k, k < len → buf (base + k) = buf' (base' + k)) → decode buf base size = .ok i len →
      decode buf' base' size' = .ok i len)

/-- 30_encoding.md R57: reserved bits are zero on encode and ignored on decode: an instruction whose reserved bits differ decodes to the
same opcode and fields, and executes the same (the two machines differ at most in those bits of code memory). -/
def Obligations.ReservedBitsAreZeroAndIgnored : Prop :=
  (∀ i : Instr, (encode i).getD (i.length - 1) 0x00#8 &&& ~~~fieldBitsOfLastByte i.mnemonic = 0x00#8) ∧
  (∀ (buf buf' : Nat → Byte) (base size : Nat) (i : Instr), decode buf base size = .ok i i.length →
    AlikeButReserved i.mnemonic base buf buf' → decode buf' base size = .ok i i.length) ∧
  (∀ (s t : State) (code' : Memory) (i : Instr), s.running = true → fetch s = .ok i i.length →
    AlikeButReserved i.mnemonic s.pc (Memory.read s.code) (Memory.read code') → step s = .next t →
    step { s with code := code' } = .next { t with code := code' })

/-- 30_encoding.md R52: the first byte of an instruction is its tag plus 128 times the low bit of field B, for what the encoder writes
and for what the decoder accepts. -/
def Obligations.FirstByteIsTagAndLowBitOfB : Prop :=
  (∀ i : Instr, ((encode i).getD 0 0x00#8).toNat = i.mnemonic.tag.toNat + 128 * (i.fieldB.toNat % 2)) ∧
  (∀ (buf : Nat → Byte) (base size : Nat) (i : Instr) (len : Nat), decode buf base size = .ok i len →
    (buf base).toNat = i.mnemonic.tag.toNat + 128 * (i.fieldB.toNat % 2))

/-- 30_encoding.md R61: the encoding is the opcode's fixed count of bytes, and they are, little-endian, the integer with the tag at bits 6:0, B
from bit 7, C from bit 36, D from bit 65, and nothing else, so every reserved bit is 0. -/
def Obligations.EncodingIsTheIntegerOfTagAndFields : Prop :=
  ∀ i : Instr, (encode i).length = i.mnemonic.length ∧
    leInteger (bufferOf (encode i)) 0 i.mnemonic.length =
      i.mnemonic.tag.toNat + i.fieldB.toNat * 2 ^ 7 + i.fieldC.toNat * 2 ^ 36 + i.fieldD.toNat * 2 ^ 65

/-- 40_decoder.md R93, R94: every instruction, with every value of every field, is read back from its encoding, wherever in a
buffer the encoding stands and whatever surrounds it, with its own length consumed. -/
def Obligations.DecodeOfEncodeIsTheInstruction : Prop :=
  ∀ (i : Instr) (buf : Nat → Byte) (base size : Nat), base + i.length ≤ size → HoldsEncoding buf base i →
    decode buf base size = .ok i i.length

/-- 40_decoder.md R93, the converse: where the reserved bits are zero, the decoded instruction's encoding is the very bytes that were
decoded. -/
def Obligations.EncodeOfDecodeIsTheBytes : Prop :=
  ∀ (buf : Nat → Byte) (base size : Nat) (i : Instr) (len : Nat), decode buf base size = .ok i len →
    buf (base + (len - 1)) &&& ~~~fieldBitsOfLastByte i.mnemonic = 0x00#8 →
    (encode i).length = len ∧ HoldsEncoding buf base i

/-- 30_encoding.md R62, R65 (and the four keys of R64): for EVERY record, the encode function answers bytes exactly when the record names
exactly one opcode, by one known key, and every field that opcode requires is present and in its range. So no key, two keys, an
unknown key, a missing field and a value out of range are each refused. What it answers decodes to that opcode with those very
values: nothing is truncated. (A superfluous D is not looked at: the model's choice, log 15.) -/
def Obligations.EncodeFailsRatherThanTruncates : Prop :=
  ∀ r : Record,
    let fits := fun (w : Nat) (x : Option Int) => ∃ v : Int, x = some v ∧ 0 ≤ v ∧ v < 2 ^ w
    ((∃ bs, encodeRecord r = .ok bs) ↔
      (r.keys = ["load_const"] ∧ fits 29 r.b ∧ fits 24 r.c) ∨
      (r.keys = ["read_mem"] ∧ fits 29 r.b ∧ fits 29 r.c) ∨
      (r.keys = ["write_mem"] ∧ fits 29 r.b ∧ fits 29 r.c) ∨
      (r.keys = ["bitwise_or"] ∧ fits 29 r.b ∧ fits 29 r.c ∧ fits 29 r.d)) ∧
    (∀ bs, encodeRecord r = .ok bs →
      (∃ (x : Addr) (y : Imm), r.keys = ["load_const"] ∧ r.b = some (x.toNat : Int) ∧ r.c = some (y.toNat : Int) ∧
        decodeBytes bs = .ok (.loadConst x y) 8) ∨
      (∃ x y : Addr, r.keys = ["read_mem"] ∧ r.b = some (x.toNat : Int) ∧ r.c = some (y.toNat : Int) ∧
        decodeBytes bs = .ok (.readMem x y) 9) ∨
      (∃ x y : Addr, r.keys = ["write_mem"] ∧ r.b = some (x.toNat : Int) ∧ r.c = some (y.toNat : Int) ∧
        decodeBytes bs = .ok (.writeMem x y) 9) ∨
      (∃ x y z : Addr, r.keys = ["bitwise_or"] ∧ r.b = some (x.toNat : Int) ∧ r.c = some (y.toNat : Int) ∧
        r.d = some (z.toNat : Int) ∧ decodeBytes bs = .ok (.bitwiseOr x y z) 12))

/-- 30_encoding.md R63: the assembler concatenates the encodings in order with nothing between, before or after them (the length is the
sum), and instruction `k` stands, and decodes, at the sum of the lengths of the instructions before it. -/
def Obligations.AssembledProgramDecodesInOrder : Prop :=
  (∀ (rs : List Record) (is : List Instr), rs.map Record.check = is.map Except.ok → assemble rs = .ok (image is)) ∧
  (∀ is : List Instr, (image is).length = (is.map Instr.length).sum) ∧
  (∀ (is : List Instr) (k : Nat) (i : Instr), is[k]? = some i →
    offsetOf is k = ((is.take k).map Instr.length).sum ∧
    decode (bufferOf (image is)) (offsetOf is k) (image is).length = .ok i i.length)

/-- 30_encoding.md R65: a number written in decimal and the same number written in hexadecimal after `0x` are both accepted and read as that
number (that digits of either case are read is the model's convention, log 15). -/
def Obligations.LiteralsInBothBasesReadAlike : Prop :=
  ∀ n : Nat, literalValue (Nat.toDigits 10 n) = some n ∧ literalValue ('0' :: 'x' :: Nat.toDigits 16 n) = some n ∧
    literalValue ('0' :: 'x' :: (Nat.toDigits 16 n).map Char.toUpper) = some n

/-- 30_encoding.md R65: assembly stops at the first record that validation refuses, identifies its position (counted from 0, the model's
convention, log 15) and answers no bytes. -/
def Obligations.AssemblyStopsAtTheFirstBadRecord : Prop :=
  ∀ (good : List Record) (bad : Record) (rest : List Record) (e : ValidationError),
    (∀ r ∈ good, r.wellFormed = true) → bad.check = .error e →
    assemble (good ++ bad :: rest) = .error (good.length, e)

/-! ## The memories -/

/-- 20_memory.md R34, R35: a word read back where it was written gives the bytes that were in bounds (the rest of the value 0, D7,
log 7), and a word elsewhere reads as before. -/
def Obligations.WordReadsBackWhatWasWritten : Prop :=
  ∀ (m : Memory) (a : Nat) (v : Word),
    memRead (memWrite m a v) a =
      (if a + 3 ≤ 65536 then v else if a = 65534 then v &&& 0x00FFFF#24 else if a = 65535 then v &&& 0x0000FF#24 else 0#24) ∧
    ∀ b, b + 3 ≤ a ∨ a + 3 ≤ b → memRead (memWrite m a v) b = memRead m b

/-- The canonical form is canonical (log 18): two memories in it that read alike at every address are the same list. -/
def Obligations.MemoriesThatReadAlikeAreEqual : Prop :=
  ∀ (size : Nat) (m m' : Memory), Memory.wf size m → Memory.wf size m' → (∀ a, Memory.read m a = Memory.read m' a) → m = m'

/-! ## The four instructions: each completes in every state, with its result and its frame -/

/-- 42_load_const.md R120, R121: in EVERY state, for every destination and immediate, LOAD_CONST answers the next state in which the bytes
B, B+1, B+2 of data memory that lie below 65536 hold C[7:0], C[15:8], C[23:16]. Every other byte of data memory, and code memory, is as
before; the event with the old `pc` is appended to the trace, `pc` advances by 8, the count by one, and from a count of 1000 on the
machine is halted with CAP_REACHED (D4, log 5), below it `halted` and `halt_cause` are as before. -/
def Obligations.LoadConstStoresItsImmediate : Prop :=
  ∀ (b : Addr) (c : Imm) (s : State), ∃ t, exec (.loadConst b c) s = .next t ∧
    WritesWord b.toNat (immByte c) s.data t.data ∧ Retires (.loadConst b c) 8 s t

/-- 43_mem_copy.md R125, R128: in EVERY state READ_MEM answers the next state in which the bytes B, B+1, B+2 of data memory that lie below
65536 hold what the bytes C, C+1, C+2 held before the write (D10, log 10), one beyond memory counting as 0 (D7, log 7). Every other
byte of data memory, and code memory, is as before; the event is appended, `pc` advances by 9, the count by one, and the cap is checked
(D4, log 5), as for LOAD_CONST. -/
def Obligations.ReadMemCopiesFromFieldCToFieldB : Prop :=
  ∀ (b c : Addr) (s : State), ∃ t, exec (.readMem b c) s = .next t ∧
    WritesWord b.toNat (fun k => byteOrZero s.data (c.toNat + k)) s.data t.data ∧ Retires (.readMem b c) 9 s t

/-- 43_mem_copy.md R126, R128: in EVERY state WRITE_MEM answers the next state in which the bytes C, C+1, C+2 of data memory that lie below
65536 hold what the bytes B, B+1, B+2 held before the write (D10, log 10), one beyond memory counting as 0 (D7, log 7). Every other
byte of data memory, and code memory, is as before; the event is appended, `pc` advances by 9, the count by one, and the cap is checked
(D4, log 5), as for LOAD_CONST. -/
def Obligations.WriteMemCopiesFromFieldBToFieldC : Prop :=
  ∀ (b c : Addr) (s : State), ∃ t, exec (.writeMem b c) s = .next t ∧
    WritesWord c.toNat (fun k => byteOrZero s.data (b.toNat + k)) s.data t.data ∧ Retires (.writeMem b c) 9 s t

/-- 44_bitwise_or.md R135, R137: in EVERY state BITWISE_OR answers the next state in which the bytes D, D+1, D+2 of data memory that lie below
65536 hold, byte by byte, the OR of what stood at B and at C before the write (D10, log 10), a byte beyond memory counting as 0 (D7,
log 7). Every other byte of data memory, and code memory, is as before; the event is appended, `pc` advances by 12, the count by one,
and the cap is checked (D4, log 5), as for LOAD_CONST. -/
def Obligations.BitwiseOrStoresTheOrOfTwoWords : Prop :=
  ∀ (b c d : Addr) (s : State), ∃ t, exec (.bitwiseOr b c d) s = .next t ∧
    WritesWord d.toNat (fun k => byteOrZero s.data (b.toNat + k) ||| byteOrZero s.data (c.toNat + k)) s.data t.data ∧
    Retires (.bitwiseOr b c d) 12 s t

/-- 43_mem_copy.md R127: `READ_MEM B=x C=y` and `WRITE_MEM B=y C=x` do the same to the machine but for their trace events. -/
def Obligations.ReadMemAndWriteMemAreMirrorImages : Prop :=
  ∀ (x y : Addr) (s : State), ∃ t, exec (.readMem x y) s = .next t ∧
    exec (.writeMem y x) s = .next { t with trace := s.trace ++ [{ pc := s.pc, instr := .writeMem y x }] }

/-- 44_bitwise_or.md R136, R137: OR is commutative and idempotent and has 0 as identity: exchanged operands leave the same data memory, and
two equal operands, or one that lies wholly beyond memory (it reads as 0, D7, log 7), make it a copy. -/
def Obligations.BitwiseOrCommutesAndCopies : Prop :=
  ∀ (b c d : Addr) (s t : State), exec (.bitwiseOr b c d) s = .next t →
    (∃ t', exec (.bitwiseOr c b d) s = .next t' ∧ t'.data = t.data) ∧
    (b = c ∨ 65536 ≤ b.toNat → ∃ t', exec (.readMem d c) s = .next t' ∧ t'.data = t.data)

/-- 43_mem_copy.md R128, 44_bitwise_or.md R137: a word copied onto itself, or ORed with itself onto itself, leaves every byte of data memory
as it was, at the top of memory too. -/
def Obligations.CopyOntoItselfChangesNoByte : Prop :=
  ∀ (b : Addr) (s t : State) (i : Instr), i = .readMem b b ∨ i = .writeMem b b ∨ i = .bitwiseOr b b b →
    exec i s = .next t → ∀ a, Memory.read t.data a = Memory.read s.data a

/-! ## The sequencer -/

/-- 41_sequencer.md R101, R103, R107: when the bytes at `pc` decode to an instruction, the running machine's step is that instruction's
meaning at the same state; the meaning itself advances `pc`, so step adds nothing around it. -/
def Obligations.StepRunsTheDecodedInstruction : Prop :=
  ∀ (s : State) (i : Instr) (len : Nat), s.running = true → decode (Memory.read s.code) s.pc 65536 = .ok i len →
    step s = exec i s

/-- The same from the encoder's side (30_encoding.md R61, 41_sequencer.md R107): where the encoding of an instruction stands at `pc`, whole
inside code memory, the step runs that instruction. -/
def Obligations.StepRunsTheEncodedInstruction : Prop :=
  ∀ (s : State) (i : Instr), s.halted = false → s.pc + i.length ≤ 65536 → HoldsEncoding (Memory.read s.code) s.pc i →
    step s = exec i s

/-- The placing of an instruction where the step fetches (log 9): the table's numbering of an encoding's bits decodes to the instruction, and a
running machine with the word placed, with room for it, runs exactly it; nothing but code memory differs. -/
def Obligations.PlacedWordIsTheNextInstructionRun : Prop :=
  ∀ (s : State) (i : Instr), s.halted = false → s.pc + i.length ≤ 65536 →
    decodeTableWord (8 * i.length) i.toInteger = some i ∧
    step (s.withFetchWord (8 * i.length) i.toInteger) = exec i (s.withFetchWord (8 * i.length) i.toInteger) ∧
    s.withFetchWord (8 * i.length) i.toInteger = { s with code := (s.withFetchWord (8 * i.length) i.toInteger).code }

/-- 41_sequencer.md R102, 60_exceptions.md R141, R142, R147: on a decode failure the step sets `halted` and the matching `halt_cause` (the
register is the spec's decision D5, log 4) and changes nothing else; the unknown tag is tested first (R146). -/
def Obligations.DecodeFailureHaltsAndChangesNothingElse : Prop :=
  ∀ s : State, s.halted = false → s.pc < 65536 →
    ((∀ len, ¬TagWithLength (Memory.read s.code s.pc) len) →
      step s = .next { s with halted := true, haltCause := .unknownOpcode }) ∧
    (∀ len, TagWithLength (Memory.read s.code s.pc) len → 65536 - s.pc < len →
      step s = .next { s with halted := true, haltCause := .truncated })

/-- 60_exceptions.md R149, 41_sequencer.md R100, R109: once stopped, by a halt or at the end of code memory, the machine's state is final.
That the model's step answers the same state is its own convention (log 1). -/
def Obligations.StoppedMachineKeepsItsState : Prop :=
  ∀ (s : State) (k : Nat), s.halted = true ∨ 65536 ≤ s.pc → runFor k s = .next s

/-- 41_sequencer.md R105: an executed instruction advances `pc` by its length and the count by one, and the sum never passes CODE_SIZE, so it
fits 17 bits. -/
def Obligations.AdvanceByLengthAndCountByOne : Prop :=
  ∀ (s : State) (i : Instr) (len : Nat), s.running = true → fetch s = .ok i len →
    ∃ t, step s = .next t ∧ t.pc = s.pc + len ∧ t.instructionsExecuted = s.instructionsExecuted + 1 ∧
      len = i.length ∧ s.pc + len ≤ 65536 ∧ s.pc + len < 2 ^ 17

/-- 60_exceptions.md R151: no step of the machine faults or is refused, in any state. For a machine that is not running the spec gives
no step at all (41_sequencer.md R100): that the model's step answers a next state there, the same state, is its own choice (log 1). -/
def Obligations.EveryStepAnswersANextState : Prop :=
  ∀ s : State, ∃ t, step s = .next t

/-- 41_sequencer.md R110, 10_state.md R11, R12: control only moves forward: a step of a running machine leaves `pc` where it is and halts, or
advances it by 8 to 12 bytes without leaving code memory. -/
def Obligations.PcOnlyMovesForward : Prop :=
  ∀ s t : State, s.running = true → step s = .next t →
    (t.pc = s.pc ∧ t.halted = true ∧ t.data = s.data ∧ t.trace = s.trace) ∨
      (s.pc + 8 ≤ t.pc ∧ t.pc ≤ s.pc + 12 ∧ t.pc ≤ 65536)

/-- 10_state.md R13, 60_exceptions.md R140, R146: `halted` is set in exactly three cases, each with its own cause (D5, log 4), and at most
one of them in a step. The third is the cap of 41_sequencer.md R106, met when the count after the increment is at least 1000 (D4,
log 5). -/
def Obligations.HaltedIsSetInExactlyThreeCases : Prop :=
  ∀ s t : State, s.running = true → step s = .next t →
    (t.halted = true ↔
      fetch s = .fail .unknownOpcode ∨ fetch s = .fail .truncated ∨
        (∃ i len, fetch s = .ok i len ∧ 1000 ≤ s.instructionsExecuted + 1)) ∧
    (fetch s = .fail .unknownOpcode → t.haltCause = .unknownOpcode) ∧
    (fetch s = .fail .truncated → t.haltCause = .truncated) ∧
    (∀ i len, fetch s = .ok i len → 1000 ≤ s.instructionsExecuted + 1 → t.haltCause = .capReached)

/-- 41_sequencer.md R109, R146: an instruction that ends exactly at the end of code memory, below the cap, stops the machine with `halted`
still false and no cause (D6, log 6); where the count after the increment is at least 1000 (R106: D4, log 5), it halts with CAP_REACHED
(the causes are D5, log 4). -/
def Obligations.EndOfCodeMemoryStopsWithoutHalting : Prop :=
  ∀ (s : State) (i : Instr), s.running = true → s.haltCause = .none → fetch s = .ok i i.length → s.pc + i.length = 65536 →
    ∃ t, step s = .next t ∧ t.running = false ∧
      (s.instructionsExecuted + 1 < 1000 → t.halted = false ∧ t.haltCause = .none ∧ t.pc = 65536) ∧
      (1000 ≤ s.instructionsExecuted + 1 → t.halted = true ∧ t.haltCause = .capReached)

/-! ## Reset and load -/

/-- 10_state.md R21, 70_reset_and_hazards.md R170, R171: the state at machine start. The start values of `halted` and of the count are the
spec's decisions D2 and D3 (log 16), `halt_cause` is D5 (log 4), the empty trace is the model's (log 2). -/
def Obligations.ResetValuesAreThoseOfTheTable : Prop :=
  State.reset.pc = 0 ∧ State.reset.halted = false ∧ State.reset.instructionsExecuted = 0 ∧ State.reset.haltCause = .none ∧
    (∀ a, Memory.read State.reset.code a = 0x00#8) ∧ (∀ a, Memory.read State.reset.data a = 0x00#8) ∧
    State.reset.trace = []

/-- 70_reset_and_hazards.md R172: an image of at most 65536 bytes stands at the start of code memory, zeros after it, and everything else is
as at reset; an empty image halts in the first step with UNKNOWN_OPCODE. -/
def Obligations.ImageIsLoadedVerbatimAtZero : Prop :=
  (∀ img : List Byte, img.length ≤ 65536 → ∃ s, loadImage img = .next s ∧
    (∀ a, Memory.read s.code a = img.getD a 0x00#8) ∧ s = { State.reset with code := s.code }) ∧
  (∃ s, loadImage [] = .next s ∧
    step s = .next { State.reset with halted := true, haltCause := .unknownOpcode })

/-- 70_reset_and_hazards.md R173: the load fails with the capacity error exactly when the image has more than 65536 bytes; an image of exactly
that size loads. -/
def Obligations.OversizeImageIsRefusedWhole : Prop :=
  ∀ img : List Byte, (loadImage img = .refused .capacityError ↔ 65536 < img.length) ∧
    (img.length ≤ 65536 → ∃ s, loadImage img = .next s)

/-- 20_memory.md R44: after any number of steps of any run, what a fetch sees is exactly the loaded image and the zero fill: no store
reaches code memory. That any number of steps answers a next state, steps past a stop among them, is the model's choice (log 1): the spec
gives a stopped machine no step (41_sequencer.md R100). -/
def Obligations.FetchAlwaysSeesTheLoadedImage : Prop :=
  ∀ (img : List Byte) (s : State) (k : Nat), loadImage img = .next s →
    ∃ t, runFor k s = .next t ∧ ∀ a, Memory.read t.code a = img.getD a 0x00#8

/-! ## Invariants and whole runs -/

/-- 10_state.md R21, 70_reset_and_hazards.md R170: the reset state meets the invariant. It rests on the start values `halted` false and
count 0 (the spec's decisions D2 and D3, log 16) and `halt_cause` NONE (D5, log 4), and on the memories' canonical form (the model's,
log 18): "every byte of code memory and of data memory 0x00" (R170) is the empty list. -/
def Obligations.ResetStateMeetsInvariant : Prop := State.reset.Inv

/-- 10_state.md R21, 70_reset_and_hazards.md R172: every loaded machine meets the invariant and has an empty history: no event, no counted
instruction, and all the rest as the history of such a run asks. Its start values are those of reset (D2, D3, log 16; the load being
the host's only move, D15, log 12; the trace field is the model's, log 2). -/
def Obligations.LoadedStateMeetsInvariants : Prop :=
  ∀ (img : List Byte) (s : State), loadImage img = .next s →
    s.Inv ∧ s.History ∧ s.trace = [] ∧ s.instructionsExecuted = 0

/-- 10_state.md R12, R14, R15, R16, R17, 60_exceptions.md R143: every step keeps the canonical memories of 65536 bytes, `pc` within 0 to
65536, the count within 0 to 1000, and the agreement of `halted`, `halt_cause` (D5, log 4) and the count (D4, log 5). -/
def Obligations.StepKeepsInvariant : Prop :=
  ∀ s t : State, s.Inv → step s = .next t → t.Inv

/-- 41_sequencer.md R104, R108, R110, R112: every step keeps the run's history: the trace is the instructions that code memory holds from
offset 0 to `pc`, in order and without gap, one per counted instruction, data memory is exactly what their effects make of the
zero memory, and TRUNCATED is never met. -/
def Obligations.StepKeepsHistory : Prop :=
  ∀ s t : State, s.Inv → s.History → step s = .next t → t.History

/-- 41_sequencer.md R108, 70_reset_and_hazards.md R177: from every state at all, the machine is stopped after at most 1001 steps. The
cap is met at a count of 1000 after the increment (R106: D4, log 5), and steps past a stop, which the model answers with the same
state (log 1), are counted among the 1001. -/
def Obligations.EveryRunStopsWithin1001Steps : Prop :=
  ∀ s : State, ∃ t, runFor 1001 s = .next t ∧ t.running = false

/-- 41_sequencer.md R108, R112: every run of every image ends halted, with UNKNOWN_OPCODE or CAP_REACHED, within the first 12000 bytes of code
memory and with at most 1000 instructions executed, and the data memory it leaves is the replay of its trace. It rests on the
causes of D5 (log 4), on the cap at 1000 after the increment (D4, log 5), on the decoder's buffer being the whole of code memory (D8,
log 8), and on the model's step answering a stopped machine's own state, so that 1001 steps cover every run (log 1). -/
def Obligations.EveryLoadedRunEndsByUnknownOpcodeOrCap : Prop :=
  ∀ (img : List Byte) (s : State), loadImage img = .next s →
    ∃ t, runFor 1001 s = .next t ∧ t.halted = true ∧ (t.haltCause = .unknownOpcode ∨ t.haltCause = .capReached) ∧
      t.pc ≤ 12000 ∧ t.instructionsExecuted ≤ 1000 ∧ t.data = replay t.trace []

/-! ## What cannot influence what -/

/-- 10_state.md R19, 41_sequencer.md R110: the contents of data memory never steer control: of two machines that differ only in data memory,
after any number of steps everything but data memory is still the same, the trace included. (Steps past a stop, which answer the same
state, are the model's choice, log 1.) -/
def Obligations.DataNeverSteersControl : Prop :=
  ∀ (k : Nat) (s t s' : State), SameButData s t → runFor k s = .next s' →
    ∃ t', runFor k t = .next t' ∧ SameButData s' t'

/-- 10_state.md R22 (the trace is the model's own field, log 2): nothing reads the trace back: with any other trace in its place the machine
runs the same and appends the same events. (Steps past a stop, which answer the same state, are the model's choice, log 1.) -/
def Obligations.TraceIsNeverReadBack : Prop :=
  ∀ (k : Nat) (s t : State) (past : List TraceEvent), runFor k s = .next t →
    ∃ new, t.trace = s.trace ++ new ∧
      runFor k { s with trace := past } = .next { t with trace := past ++ new }

/-- 42_load_const.md R120, 43_mem_copy.md R125, R126, 44_bitwise_or.md R135 ("Reads", "Writes"): the bytes an instruction writes depend only on
the bytes of data memory it reads, and no byte but those it writes changes. -/
def Obligations.OnlyTheBytesReadReachTheBytesWritten : Prop :=
  ∀ (i : Instr) (s t s' t' : State), exec i s = .next s' → exec i t = .next t' →
    (∀ a ∈ bytesRead i, Memory.read s.data a = Memory.read t.data a) →
    (∀ a ∈ bytesWritten i, Memory.read s'.data a = Memory.read t'.data a) ∧
    (∀ a, a ∉ bytesWritten i → Memory.read s'.data a = Memory.read s.data a) ∧
    (bytesRead i).length ≤ 6 ∧ (bytesWritten i).length ≤ 3

/-! ## The blocks at signal level -/

/-- 40_decoder.md R95 (the spec's own framing, D11, D13, log 11): the decoder block computes the decode function from the window of 12 bytes
and the number remaining, whatever the window carries beyond the end; `tag` always shows the window's low seven bits, `op` the opcode of a
known tag under TRUNCATED too, and the unused field outputs are 0. -/
def Obligations.DecoderBlockComputesDecode : Prop :=
  ∀ (buf : Nat → Byte) (base size : Nat) (win : BitVec 96), base ≤ size → size - base ≤ 65536 →
    (∀ k, k < 12 → base + k < size → winByte win k = buf (base + k)) →
    let p := decoderPorts win (BitVec.ofNat 17 (size - base))
    (∀ i len, decode buf base size = .ok i len →
      p = { status := 0#2, op := i.mnemonic.code, tag := i.mnemonic.tag, b := i.fieldB, c := i.fieldC, d := i.fieldD
            len := BitVec.ofNat 4 len }) ∧
    (∀ f, decode buf base size = .fail f →
      p.status = (match f with | .unknownOpcode => 1#2 | .truncated => 2#2) ∧ p.tag = win.extractLsb' 0 7 ∧
        (∀ m, base < size → mnemonicOfTag (tagOf (buf base)) = some m → p.op = m.code) ∧
        p.b = 0#29 ∧ p.c = 0#29 ∧ p.d = 0#29 ∧ p.len = 0#4)

/-- 41_sequencer.md R115, R114 (the spec's own framing, D13, log 11): in a state that meets the invariant the ports show the state at the
spec's widths. The code port shows `pc` as its address (below 65536; what it shows at 65536 is the model's choice, log 11, and not
stated), `CODE_SIZE - pc` as `avail`, and the bytes from `pc` on that lie in code memory; the decoder block fed from it gives the
fetched instruction, or the status of the failure. Where an instruction executes, the data read port makes exactly the byte reads
of that instruction (20_memory.md R34: the in-bounds bytes of its source words) with the bytes as they stand, the data write port
exactly its byte writes with the bytes that stand there afterwards, and the trace signals are the event the step appends; where
none executes there is no access and no event. With `step_enable` low the machine holds its state. -/
def Obligations.SequencerPortsShowTheStep : Prop :=
  ∀ (s t : State) (en : Bool), s.Inv → tick en s = .next t →
    let p := sequencerPorts en s
    p.pc.toNat = s.pc ∧ p.instructionsExecuted.toNat = s.instructionsExecuted ∧ p.halted = s.halted ∧
    p.haltCause = s.haltCause.toCode ∧ p.running = (!s.halted && decide (s.pc < 65536)) ∧
    (s.pc < 65536 → p.codeAddr.toNat = s.pc) ∧ p.avail.toNat = 65536 - s.pc ∧
    (∀ k, k < 12 → s.pc + k < 65536 → winByte p.codeWin k = Memory.read s.code (s.pc + k)) ∧
    (en = false → t = s) ∧
    (∀ i, s.running = true → fetch s = .ok i i.length →
      decoderPorts p.codeWin p.avail =
        { status := 0#2, op := i.mnemonic.code, tag := i.mnemonic.tag, b := i.fieldB, c := i.fieldC, d := i.fieldD
          len := BitVec.ofNat 4 i.length }) ∧
    (∀ f, s.running = true → fetch s = .fail f →
      (decoderPorts p.codeWin p.avail).status = (match f with | .unknownOpcode => 1#2 | .truncated => 2#2)) ∧
    (∀ i, en = true → s.running = true → fetch s = .ok i i.length →
      t.trace = s.trace ++ [{ pc := s.pc, instr := i }] ∧ p.trace.valid = true ∧ p.trace.pc.toNat = s.pc ∧
      p.trace.op = i.mnemonic.code ∧ p.trace.b = i.fieldB ∧ p.trace.c = i.fieldC ∧ p.trace.d = i.fieldD ∧
      p.dataReads.map (fun r => r.1.toNat) = bytesRead i ∧ p.dataWrites.map (fun w => w.1.toNat) = bytesWritten i) ∧
    (en = false ∨ s.running = false ∨ (∃ f, fetch s = .fail f) →
      t.trace = s.trace ∧ p.trace.valid = false ∧ p.dataReads = [] ∧ p.dataWrites = []) ∧
    (∀ r ∈ p.dataReads, r.1.toNat < 65536 ∧ Memory.read s.data r.1.toNat = r.2) ∧
    (∀ w ∈ p.dataWrites, w.1.toNat < 65536 ∧ Memory.read t.data w.1.toNat = w.2) ∧
    (∀ a, (∀ w ∈ p.dataWrites, w.1.toNat ≠ a) → Memory.read t.data a = Memory.read s.data a)

/-- 70_reset_and_hazards.md R177: the host reads the final `pc`, the total of instructions executed, and a range of data memory, by default
addresses 0 to 255; the spec adds `halted` and `halt_cause`. For a range past `DATA_SIZE`, and for one with `lo > hi` (an empty dump), what
is shown is the model's choice (log 19). -/
def Obligations.HostReportShowsTheFinalState : Prop :=
  ∀ (s : State) (lo hi : Nat),
    let r := hostReport s lo hi
    r.pc = s.pc ∧ r.instructionsExecuted = s.instructionsExecuted ∧ r.halted = s.halted ∧ r.haltCause = s.haltCause ∧
    r.dump.length = hi - lo ∧ (∀ k, k < hi - lo → r.dump[k]? = some (Memory.read s.data (lo + k))) ∧
    hostReport s = hostReport s 0 256

/-! ## Decoding with no byte to read -/

/-- 40_decoder.md R90 and R95's "`status = TRUNCATED` when `avail = 0`" (the spec's decision D9, log 8): with the base offset at or past
the end of the buffer decoding fails as truncated, whatever the buffer holds, and so does the decoder block with no byte available, whatever
its window carries, with every field output and the length 0. -/
def Obligations.NoByteLeftIsTruncated : Prop :=
  (∀ (buf : Nat → Byte) (base size : Nat), size ≤ base → decode buf base size = .fail .truncated) ∧
  (∀ win : BitVec 96,
    let p := decoderPorts win 0#17
    p.status = 2#2 ∧ p.tag = win.extractLsb' 0 7 ∧ p.b = 0#29 ∧ p.c = 0#29 ∧ p.d = 0#29 ∧ p.len = 0#4)
end

