-- ==== Sys2Proof/Laws/Encoding.lean ====
section
/-! SUPPORT. The laws of the byte and bit helpers that decoder and encoder share. -/

namespace Sys2Proof

@[simp] theorem length_serialize (n v : Nat) : (serialize n v).length = n := by
  induction n generalizing v with
  | zero => rfl
  | succ n ih => simp [serialize, ih]

/-- Byte `k` of a serialized integer is its bits `8k+7 : 8k`. -/
theorem getD_serialize (n v k : Nat) (h : k < n) : (serialize n v).getD k 0x00#8 = BitVec.ofNat 8 (v >>> (8 * k)) := by
  induction n generalizing v k with
  | zero => omega
  | succ n ih =>
    cases k with
    | zero => simp [serialize]
    | succ k =>
      rw [serialize, List.getD_cons_succ, ih _ _ (by omega), ← Nat.shiftRight_add]
      congr 2
      omega

/-- Assembling bytes into the little-endian integer, in the size of the bytes read. -/
theorem leInteger_lt (buf : Nat → Byte) (base n : Nat) : leInteger buf base n < 2 ^ (8 * n) := by
  induction n with
  | zero => simp [leInteger]
  | succ n ih =>
    have hb : (buf (base + n)).toNat < 2 ^ 8 := (buf (base + n)).isLt
    have : 2 ^ (8 * (n + 1)) = 2 ^ (8 * n) * 2 ^ 8 := by rw [← pow_add]; ring_nf
    rw [leInteger, Nat.shiftLeft_eq, this]
    nlinarith [Nat.pos_of_ne_zero (pow_ne_zero (8 * n) (two_ne_zero (α := Nat)))]

/-- Bit `j` of the assembled integer is bit `j mod 8` of byte `j div 8` (00_scope.md R6). -/
theorem testBit_leInteger (buf : Nat → Byte) (base n j : Nat) :
    (leInteger buf base n).testBit j = (decide (j < 8 * n) && (buf (base + j / 8)).getLsbD (j % 8)) := by
  induction n with
  | zero => simp [leInteger]
  | succ n ih =>
    have hsum : leInteger buf base (n + 1) = 2 ^ (8 * n) * (buf (base + n)).toNat + leInteger buf base n := by
      rw [leInteger, Nat.shiftLeft_eq]; ring
    rw [hsum, Nat.testBit_two_pow_mul_add _ (leInteger_lt buf base n)]
    split
    · rename_i hj
      rw [ih]; simp [hj, show j < 8 * (n + 1) by omega]
    · rename_i hj
      by_cases hlt : j < 8 * (n + 1)
      · rw [show j / 8 = n by omega, show j - 8 * n = j % 8 by omega]
        simp [hlt, BitVec.getLsbD]
      · rw [BitVec.testBit_toNat, BitVec.getLsbD_of_ge _ _ (by omega)]
        simp [hlt]

/-- Only the bytes of the range matter to the assembled integer. -/
theorem leInteger_congr {buf buf' : Nat → Byte} {base base' n : Nat} (h : ∀ k, k < n → buf (base + k) = buf' (base' + k)) :
    leInteger buf base n = leInteger buf' base' n := by
  induction n with
  | zero => rfl
  | succ n ih => rw [leInteger, leInteger, ih fun k hk => h k (by omega), h n (by omega)]

/-- Bit `j` of a field. -/
theorem getLsbD_bitField (v lo w j : Nat) : (bitField v lo w).getLsbD j = (decide (j < w) && v.testBit (lo + j)) := by
  simp [bitField, BitVec.getLsbD_ofNat]

/-- A tag's bits are the low seven of the first byte. -/
theorem getLsbD_tagOf (b : Byte) (j : Nat) : (tagOf b).getLsbD j = (decide (j < 7) && b.getLsbD j) := by
  by_cases hj : j < 7
  · have hm : (0x7F#8).getLsbD j = true := by interval_cases j <;> rfl
    rw [tagOf, BitVec.getLsbD_setWidth, BitVec.getLsbD_and, hm]
    simp [hj]
  · rw [BitVec.getLsbD_of_ge _ _ (by omega)]
    simp [hj]

@[simp] theorem mnemonicOfTag_tag (m : Mnemonic) : mnemonicOfTag m.tag = some m := by cases m <;> rfl

/-- The tag alone selects the opcode (30_encoding.md R53). -/
theorem mnemonicOfTag_eq_some {t : BitVec 7} {m : Mnemonic} (h : mnemonicOfTag t = some m) : t = m.tag := by
  unfold mnemonicOfTag at h
  split at h
  · cases h; assumption
  · split at h
    · cases h; assumption
    · split at h
      · cases h; assumption
      · split at h
        · cases h; assumption
        · cases h

/-- What a decoded instruction says of the buffer: it lies inside it, its tag stands in the first byte, and its fields are
the integer's. -/
theorem decode_ok {buf : Nat → Byte} {base size : Nat} {i : Instr} {len : Nat} (h : decode buf base size = .ok i len) :
    ∃ m, mnemonicOfTag (tagOf (buf base)) = some m ∧ len = m.length ∧ base + m.length ≤ size ∧
      i = fieldsOf m (leInteger buf base m.length) := by
  unfold decode at h
  split at h
  · cases h
  · split at h
    · cases h
    · rename_i m hm
      split at h
      · cases h
      · cases h
        exact ⟨m, hm, rfl, by omega, rfl⟩

@[simp] theorem mnemonic_fieldsOf (m : Mnemonic) (v : Nat) : (fieldsOf m v).mnemonic = m := by cases m <;> rfl

@[simp] theorem length_fieldsOf (m : Mnemonic) (v : Nat) : (fieldsOf m v).length = m.length := by cases m <;> rfl

/-- The consumed byte count is the instruction's length, and the instruction lies inside the buffer (10_state.md R12). -/
theorem decode_ok_length {buf : Nat → Byte} {base size : Nat} {i : Instr} {len : Nat}
    (h : decode buf base size = .ok i len) : len = i.length ∧ base + i.length ≤ size := by
  obtain ⟨m, -, rfl, hle, rfl⟩ := decode_ok h
  simp [hle]

theorem Mnemonic.length_bounds (m : Mnemonic) : 8 ≤ m.length ∧ m.length ≤ 12 := by cases m <;> decide

/-! ## The record -/

/-- A required field is accepted exactly when it is present and in range, and its value is the integer itself. -/
theorem requireField_eq_ok {w : Nat} {x : Option Int} {v : BitVec w} :
    requireField w x = .ok v ↔ x = some (v.toNat : Int) := by
  cases x with
  | none => simp [requireField]
  | some n =>
    by_cases h : 0 ≤ n ∧ n < 2 ^ w
    · obtain ⟨k, rfl⟩ := Int.eq_ofNat_of_zero_le h.1
      have hk : k < 2 ^ w := by exact_mod_cast h.2
      simp only [requireField, if_pos h, Int.toNat_natCast, Except.ok.injEq, Option.some.injEq, Int.natCast_inj]
      constructor
      · rintro rfl
        rw [BitVec.toNat_ofNat, Nat.mod_eq_of_lt hk]
      · rintro rfl
        simp
    · simp only [requireField, if_neg h, Option.some.injEq, reduceCtorEq, false_iff]
      rintro rfl
      exact h ⟨Int.natCast_nonneg _, by exact_mod_cast v.isLt⟩

/-- The key of a record that names an opcode. -/
theorem ofKey_eq_some {k : String} {m : Mnemonic} :
    Mnemonic.ofKey k = some m ↔
      k = (match m with
        | .loadConst => "load_const"
        | .readMem => "read_mem"
        | .writeMem => "write_mem"
        | .bitwiseOr => "bitwise_or") := by
  unfold Mnemonic.ofKey
  cases m <;> (repeat' split) <;> simp_all

theorem opcode_eq_ok {r : Record} {m : Mnemonic} :
    r.opcode = .ok m ↔ ∃ k, r.keys = [k] ∧ Mnemonic.ofKey k = some m := by
  unfold Record.opcode
  split
  · rename_i k hk
    cases h : Mnemonic.ofKey k <;> simp [hk, h]
  · rename_i h
    simp only [reduceCtorEq, false_iff, not_exists, not_and]
    exact fun k hk => absurd hk (h k)

end Sys2Proof
end

