-- ==== Sys2Proof/Laws/Memory.lean ====
section
/-! SUPPORT. The laws of the byte memories: a read after a write, and that every operation keeps the canonical form. -/

namespace Sys2Proof.Machine

/-! ## Reading after writing (20_memory.md R41) -/

theorem Memory.read_erase (m : Memory) (a b : Nat) :
    Memory.read (Memory.erase m a) b = if b = a then 0x00#8 else Memory.read m b := by
  unfold Memory.erase
  induction m with
  | nil => simp [Memory.read]
  | cons c rest ih =>
    obtain ⟨k, x⟩ := c
    by_cases hk : k = a
    · subst hk
      simp only [List.filter_cons, ne_eq, not_true_eq_false, decide_false, Bool.false_eq_true, if_false, ih,
        Memory.read]
      by_cases hb : b = k
      · simp [hb]
      · simp [hb, Ne.symm hb]
    · simp only [List.filter_cons, ne_eq, hk, not_false_eq_true, decide_true, if_true, Memory.read, ih]
      by_cases hb : b = a
      · subst hb; simp [hk]
      · simp [hb]

theorem Memory.read_insert (m : Memory) (a b : Nat) (v : Byte) (h : ∀ c ∈ m, c.1 ≠ a) :
    Memory.read (Memory.insert m a v) b = if b = a then v else Memory.read m b := by
  induction m with
  | nil => simp [Memory.insert, Memory.read, eq_comm]
  | cons c rest ih =>
    obtain ⟨k, x⟩ := c
    have hk : k ≠ a := h (k, x) (by simp)
    have ih' := ih fun c hc => h c (by simp [hc])
    unfold Memory.insert
    split
    · by_cases hb : b = a
      · simp [Memory.read, hb]
      · simp [Memory.read, hb, Ne.symm hb]
    · by_cases hb : b = a
      · subst hb; simp [Memory.read, hk, ih']
      · simp [Memory.read, hb, ih']

theorem Memory.erase_ne (m : Memory) (a : Nat) : ∀ c ∈ Memory.erase m a, c.1 ≠ a := by
  intro c hc
  simpa using (List.mem_filter.mp hc).2

/-- All that storing one byte does: its address holds it and every other address reads as before, in any memory. -/
theorem Memory.read_write (m : Memory) (a b : Nat) (v : Byte) :
    Memory.read (Memory.write m a v) b = if b = a then v else Memory.read m b := by
  unfold Memory.write
  split
  · rename_i hv; rw [Memory.read_erase, hv]
  · rw [Memory.read_insert _ _ _ _ (Memory.erase_ne m a), Memory.read_erase]
    by_cases hb : b = a <;> simp [hb]

/-! ## The canonical form -/

theorem Memory.wf_nil (size : Nat) : Memory.wf size [] := by simp [Memory.wf]

theorem Memory.wf_erase {size : Nat} {m : Memory} (h : Memory.wf size m) (a : Nat) :
    Memory.wf size (Memory.erase m a) :=
  ⟨h.1.filter _, fun c hc => h.2 c (List.mem_filter.mp hc).1⟩

theorem Memory.mem_insert {m : Memory} {a : Nat} {v : Byte} {c : Host.Cell} (h : c ∈ Memory.insert m a v) :
    c = (a, v) ∨ c ∈ m := by
  induction m with
  | nil => simpa [Memory.insert] using h
  | cons d rest ih =>
    obtain ⟨k, x⟩ := d
    unfold Memory.insert at h
    split at h
    · simpa using h
    · rcases List.mem_cons.mp h with h | h
      · simp [h]
      · rcases ih h with h | h <;> simp [h]

theorem Memory.pairwise_insert {m : Memory} {a : Nat} (v : Byte) (hs : m.Pairwise (fun c d => c.1 < d.1))
    (hn : ∀ c ∈ m, c.1 ≠ a) : (Memory.insert m a v).Pairwise (fun c d => c.1 < d.1) := by
  induction m with
  | nil => simp [Memory.insert]
  | cons d rest ih =>
    obtain ⟨k, x⟩ := d
    obtain ⟨hd, hr⟩ := List.pairwise_cons.mp hs
    have hk : k ≠ a := hn (k, x) (by simp)
    unfold Memory.insert
    split
    · rename_i hlt
      refine List.pairwise_cons.mpr ⟨fun c hc => ?_, hs⟩
      rcases List.mem_cons.mp hc with rfl | hc
      · exact hlt
      · exact lt_trans hlt (hd c hc)
    · rename_i hge
      refine List.pairwise_cons.mpr ⟨fun c hc => ?_, ih hr fun c hc => hn c (by simp [hc])⟩
      rcases Memory.mem_insert hc with rfl | hc
      · show k < a
        omega
      · exact hd c hc

/-- Storing one byte inside the memory keeps the canonical form. -/
theorem Memory.wf_write {size : Nat} {m : Memory} (h : Memory.wf size m) {a : Nat} (ha : a < size) (v : Byte) :
    Memory.wf size (Memory.write m a v) := by
  have he := Memory.wf_erase h a
  unfold Memory.write
  split
  · exact he
  · rename_i hv
    refine ⟨Memory.pairwise_insert v he.1 (Memory.erase_ne m a), fun c hc => ?_⟩
    rcases Memory.mem_insert hc with rfl | hc
    · exact ⟨ha, hv⟩
    · exact he.2 c hc

theorem Memory.wf_storeBytes {size : Nat} {m : Memory} (h : Memory.wf size m) (a : Nat) (vs : List Byte) :
    Memory.wf size (Memory.storeBytes size m a vs) := by
  induction vs generalizing m a with
  | nil => exact h
  | cons v vs ih =>
    unfold Memory.storeBytes
    refine ih ?_ _
    split
    · exact Memory.wf_write h ‹_› v
    · exact h

/-- All that storing a list of bytes does. -/
theorem Memory.read_storeBytes (size : Nat) (m : Memory) (a : Nat) (vs : List Byte) (b : Nat) :
    Memory.read (Memory.storeBytes size m a vs) b =
      if a ≤ b ∧ b < a + vs.length ∧ b < size then vs.getD (b - a) 0x00#8 else Memory.read m b := by
  induction vs generalizing m a with
  | nil => simp only [Memory.storeBytes, List.length_nil]; rw [if_neg (by omega)]
  | cons v vs ih =>
    unfold Memory.storeBytes
    rw [ih]
    simp only [List.length_cons]
    by_cases hin : a + 1 ≤ b ∧ b < a + 1 + vs.length ∧ b < size
    · rw [if_pos hin, if_pos (by omega)]
      obtain ⟨d, hd⟩ : ∃ d, b - a = d + 1 := ⟨b - a - 1, by omega⟩
      rw [hd, List.getD_cons_succ]
      congr 1
      omega
    · rw [if_neg hin]
      by_cases hba : b = a
      · subst hba
        by_cases hs : b < size
        · rw [if_pos hs, if_pos (by omega), Memory.read_write]; simp
        · rw [if_neg hs, if_neg (by omega)]
      · have hout : ¬(a ≤ b ∧ b < a + (vs.length + 1) ∧ b < size) := by omega
        rw [if_neg hout]
        split
        · rw [Memory.read_write, if_neg hba]
        · rfl

/-- An address that no entry lists reads 0. -/
theorem Memory.read_eq_zero {m : Memory} {a : Nat} (h : ∀ c ∈ m, c.1 ≠ a) : Memory.read m a = 0x00#8 := by
  induction m with
  | nil => rfl
  | cons c rest ih =>
    obtain ⟨k, x⟩ := c
    have hk : k ≠ a := h (k, x) (by simp)
    simp only [Memory.read, hk, if_false]
    exact ih fun c hc => h c (by simp [hc])

/-- An address at or beyond the size of a canonical memory reads 0. -/
theorem Memory.read_beyond {size : Nat} {m : Memory} (h : Memory.wf size m) {a : Nat} (ha : size ≤ a) :
    Memory.read m a = 0x00#8 :=
  Memory.read_eq_zero fun c hc hca => by have := (h.2 c hc).1; omega

end Sys2Proof.Machine
end

