-- ==== Sys2Proof/Laws/PerInstr.lean ====
section
/-! SUPPORT. The per-instruction family EncodeShape: an instruction's encoding has its opcode's length, and its first byte's low
seven bits are its opcode's tag whatever the fields are (30_encoding.md R50, R52, 40_decoder.md R94). -/

namespace Sys2Proof.Laws.EncodeShape

def Statement (i : Instr) : Prop :=
  (encode i).length = i.mnemonic.length ∧ tagOf ((encode i).getD 0 0x00#8) = i.mnemonic.tag

/-- The tag of an integer whose low seven bits are a tag. -/
theorem tagOf_low {v : Nat} {t : BitVec 7} (h : v % 128 = t.toNat) : tagOf (BitVec.ofNat 8 v) = t := by
  refine BitVec.eq_of_toNat_eq ?_
  rw [← h]
  simp only [tagOf, BitVec.toNat_setWidth, BitVec.toNat_and, BitVec.toNat_ofNat]
  rw [show (127 % 2 ^ 8 : Nat) = 2 ^ 7 - 1 by norm_num, Nat.and_two_pow_sub_one_eq_mod]
  omega

/-- A field put at bit 7 or above leaves the low seven bits alone. -/
theorem or_shift_mod (u x k : Nat) (hk : 7 ≤ k) : (u ||| x <<< k) % 128 = u % 128 := by
  rw [show (128 : Nat) = 2 ^ 7 by norm_num]
  refine Nat.eq_of_testBit_eq fun j => ?_
  simp only [Nat.testBit_mod_two_pow, Nat.testBit_or, Nat.testBit_shiftLeft]
  by_cases hj : j < 7
  · simp [hj, show ¬ k ≤ j by omega]
  · simp [hj]

theorem loadConst (b : Addr) (c : Imm) : Statement (.loadConst b c) := by
  refine ⟨length_serialize _ _, tagOf_low ?_⟩
  rw [Instr.toInteger, or_shift_mod _ _ _ (by norm_num), or_shift_mod _ _ _ (by norm_num)]
  rfl

theorem readMem (b c : Addr) : Statement (.readMem b c) := by
  refine ⟨length_serialize _ _, tagOf_low ?_⟩
  rw [Instr.toInteger, or_shift_mod _ _ _ (by norm_num), or_shift_mod _ _ _ (by norm_num)]
  rfl

theorem writeMem (b c : Addr) : Statement (.writeMem b c) := by
  refine ⟨length_serialize _ _, tagOf_low ?_⟩
  rw [Instr.toInteger, or_shift_mod _ _ _ (by norm_num), or_shift_mod _ _ _ (by norm_num)]
  rfl

theorem bitwiseOr (b c d : Addr) : Statement (.bitwiseOr b c d) := by
  refine ⟨length_serialize _ _, tagOf_low ?_⟩
  rw [Instr.toInteger, or_shift_mod _ _ _ (by norm_num), or_shift_mod _ _ _ (by norm_num), or_shift_mod _ _ _ (by norm_num)]
  rfl

end Sys2Proof.Laws.EncodeShape
end

