-- ==== Sys2Proof/Laws/Ports.lean ====
section
/-! SUPPORT. What the ports carry: the code window byte by byte, the byte accesses of an instruction, and which instruction a step is
about to execute. -/

namespace Sys2Proof.Machine

theorem mem_accessedBytes (a : Addr) (x : Nat) :
    x ∈ accessedBytes a ↔ a.toNat ≤ x ∧ x < a.toNat + 3 ∧ x < 65536 := by
  unfold accessedBytes Config.dataSize
  simp [List.mem_filter]
  omega

theorem length_accessedBytes_le (a : Addr) : (accessedBytes a).length ≤ 3 := List.length_filter_le _ _

theorem lt_of_mem_bytesRead {i : Instr} {x : Nat} (h : x ∈ bytesRead i) : x < 65536 := by
  obtain ⟨a, -, ha⟩ := List.mem_flatMap.mp h
  exact ((mem_accessedBytes a x).mp ha).2.2

theorem lt_of_mem_bytesWritten {i : Instr} {x : Nat} (h : x ∈ bytesWritten i) : x < 65536 :=
  ((mem_accessedBytes _ x).mp h).2.2

/-- A byte address in bounds fits the 30-bit address ports. -/
theorem toNat_portAddr {x : Nat} (h : x < 65536) : (BitVec.ofNat 30 x).toNat = x := by
  rw [BitVec.toNat_ofNat, Nat.mod_eq_of_lt (by omega)]

theorem map_toNat_portAddr {xs : List Nat} (h : ∀ x ∈ xs, x < 65536) :
    xs.map (fun x => (BitVec.ofNat 30 x).toNat) = xs := by
  conv => rhs; rw [← List.map_id xs]
  exact List.map_congr_left fun x hx => toNat_portAddr (h x hx)

theorem addrs_readPort (s : State) (i : Instr) : (readPort s i).map (fun r => r.1.toNat) = bytesRead i := by
  rw [readPort, List.map_map]
  exact map_toNat_portAddr fun _ => lt_of_mem_bytesRead

theorem addrs_writePort (s : State) (i : Instr) : (writePort s i).map (fun w => w.1.toNat) = bytesWritten i := by
  rw [writePort, List.map_map]
  exact map_toNat_portAddr fun _ => lt_of_mem_bytesWritten

/-- Byte `k` of the code window is the byte of code memory at `pc + k`. -/
theorem winByte_codeWindow (s : State) {k : Nat} (hk : k < 12) :
    winByte (codeWindow s) k = Memory.read s.code (s.pc + k) := by
  refine BitVec.eq_of_getLsbD_eq fun j hj => ?_
  unfold winByte codeWindow Config.maxLen
  simp only [BitVec.getLsbD_extractLsb', hj, decide_true, Bool.true_and, BitVec.getLsbD_ofNat, testBit_leInteger]
  rw [show (8 * k + j) / 8 = k by omega, show (8 * k + j) % 8 = j by omega]
  simp
  omega

theorem toNat_availPort (s : State) : (availPort s).toNat = 65536 - s.pc := by
  unfold availPort Config.codeSize
  rw [BitVec.toNat_ofNat, Nat.mod_eq_of_lt (by omega)]

theorem pendingInstr_disabled (s : State) : pendingInstr false s = none := rfl

theorem pendingInstr_stopped (en : Bool) {s : State} (h : s.running = false) : pendingInstr en s = none := by
  simp [pendingInstr, h]

theorem pendingInstr_fail (en : Bool) {s : State} {f : DecodeFailure} (h : fetch s = .fail f) :
    pendingInstr en s = none := by
  simp [pendingInstr, h]

theorem pendingInstr_ok {s : State} {i : Instr} {len : Nat} (hr : s.running = true) (h : fetch s = .ok i len) :
    pendingInstr true s = some i := by
  simp [pendingInstr, hr, h]

end Sys2Proof.Machine
end

