-- ==== Sys2Proof/Laws/State.lean ====
section
/-! SUPPORT. One lemma per field per update of State, so that no proof unfolds a record update. -/

namespace Sys2Proof.Machine

/-! ## storeWord -/

@[simp] theorem storeWord_pc (a : Nat) (v : Word) (s : State) : (storeWord a v s).pc = s.pc := rfl
@[simp] theorem storeWord_halted (a : Nat) (v : Word) (s : State) : (storeWord a v s).halted = s.halted := rfl
@[simp] theorem storeWord_instructionsExecuted (a : Nat) (v : Word) (s : State) : (storeWord a v s).instructionsExecuted = s.instructionsExecuted := rfl
@[simp] theorem storeWord_haltCause (a : Nat) (v : Word) (s : State) : (storeWord a v s).haltCause = s.haltCause := rfl
@[simp] theorem storeWord_code (a : Nat) (v : Word) (s : State) : (storeWord a v s).code = s.code := rfl
@[simp] theorem storeWord_data (a : Nat) (v : Word) (s : State) : (storeWord a v s).data = memWrite s.data a v := rfl
@[simp] theorem storeWord_trace (a : Nat) (v : Word) (s : State) : (storeWord a v s).trace = s.trace := rfl

/-! ## emitTrace -/

@[simp] theorem emitTrace_pc (i : Instr) (s : State) : (emitTrace i s).pc = s.pc := rfl
@[simp] theorem emitTrace_halted (i : Instr) (s : State) : (emitTrace i s).halted = s.halted := rfl
@[simp] theorem emitTrace_instructionsExecuted (i : Instr) (s : State) : (emitTrace i s).instructionsExecuted = s.instructionsExecuted := rfl
@[simp] theorem emitTrace_haltCause (i : Instr) (s : State) : (emitTrace i s).haltCause = s.haltCause := rfl
@[simp] theorem emitTrace_code (i : Instr) (s : State) : (emitTrace i s).code = s.code := rfl
@[simp] theorem emitTrace_data (i : Instr) (s : State) : (emitTrace i s).data = s.data := rfl
@[simp] theorem emitTrace_trace (i : Instr) (s : State) : (emitTrace i s).trace = s.trace ++ [{ pc := s.pc, instr := i }] := rfl

/-! ## advance -/

@[simp] theorem advance_pc (len : Nat) (s : State) : (advance len s).pc = s.pc + len := rfl
@[simp] theorem advance_halted (len : Nat) (s : State) : (advance len s).halted = s.halted := rfl
@[simp] theorem advance_instructionsExecuted (len : Nat) (s : State) : (advance len s).instructionsExecuted = s.instructionsExecuted := rfl
@[simp] theorem advance_haltCause (len : Nat) (s : State) : (advance len s).haltCause = s.haltCause := rfl
@[simp] theorem advance_code (len : Nat) (s : State) : (advance len s).code = s.code := rfl
@[simp] theorem advance_data (len : Nat) (s : State) : (advance len s).data = s.data := rfl
@[simp] theorem advance_trace (len : Nat) (s : State) : (advance len s).trace = s.trace := rfl

/-! ## countOne -/

@[simp] theorem countOne_pc (s : State) : (countOne s).pc = s.pc := rfl
@[simp] theorem countOne_halted (s : State) : (countOne s).halted = s.halted := rfl
@[simp] theorem countOne_instructionsExecuted (s : State) : (countOne s).instructionsExecuted = s.instructionsExecuted + 1 := rfl
@[simp] theorem countOne_haltCause (s : State) : (countOne s).haltCause = s.haltCause := rfl
@[simp] theorem countOne_code (s : State) : (countOne s).code = s.code := rfl
@[simp] theorem countOne_data (s : State) : (countOne s).data = s.data := rfl
@[simp] theorem countOne_trace (s : State) : (countOne s).trace = s.trace := rfl

/-! ## haltEntry -/

@[simp] theorem haltEntry_pc (cause : HaltCause) (s : State) : (haltEntry cause s).pc = s.pc := rfl
@[simp] theorem haltEntry_halted (cause : HaltCause) (s : State) : (haltEntry cause s).halted = true := rfl
@[simp] theorem haltEntry_instructionsExecuted (cause : HaltCause) (s : State) : (haltEntry cause s).instructionsExecuted = s.instructionsExecuted := rfl
@[simp] theorem haltEntry_haltCause (cause : HaltCause) (s : State) : (haltEntry cause s).haltCause = cause := rfl
@[simp] theorem haltEntry_code (cause : HaltCause) (s : State) : (haltEntry cause s).code = s.code := rfl
@[simp] theorem haltEntry_data (cause : HaltCause) (s : State) : (haltEntry cause s).data = s.data := rfl
@[simp] theorem haltEntry_trace (cause : HaltCause) (s : State) : (haltEntry cause s).trace = s.trace := rfl

/-! ## capCheck: the frame, and the two registers it may write -/

@[simp] theorem capCheck_pc (s : State) : (capCheck s).pc = s.pc := by
  unfold capCheck; split <;> rfl
@[simp] theorem capCheck_instructionsExecuted (s : State) : (capCheck s).instructionsExecuted = s.instructionsExecuted := by
  unfold capCheck; split <;> rfl
@[simp] theorem capCheck_code (s : State) : (capCheck s).code = s.code := by
  unfold capCheck; split <;> rfl
@[simp] theorem capCheck_data (s : State) : (capCheck s).data = s.data := by
  unfold capCheck; split <;> rfl
@[simp] theorem capCheck_trace (s : State) : (capCheck s).trace = s.trace := by
  unfold capCheck; split <;> rfl

theorem capCheck_halted (s : State) :
    (capCheck s).halted = (if Config.cap ≤ s.instructionsExecuted then true else s.halted) := by
  unfold capCheck; split <;> rfl

theorem capCheck_haltCause (s : State) :
    (capCheck s).haltCause = (if Config.cap ≤ s.instructionsExecuted then .capReached else s.haltCause) := by
  unfold capCheck; split <;> rfl

/-! ## withFetchWord: only code memory -/

@[simp] theorem withFetchWord_pc (s : State) (nbits w : Nat) : (s.withFetchWord nbits w).pc = s.pc := rfl
@[simp] theorem withFetchWord_halted (s : State) (nbits w : Nat) : (s.withFetchWord nbits w).halted = s.halted := rfl
@[simp] theorem withFetchWord_instructionsExecuted (s : State) (nbits w : Nat) : (s.withFetchWord nbits w).instructionsExecuted = s.instructionsExecuted := rfl
@[simp] theorem withFetchWord_haltCause (s : State) (nbits w : Nat) : (s.withFetchWord nbits w).haltCause = s.haltCause := rfl
@[simp] theorem withFetchWord_data (s : State) (nbits w : Nat) : (s.withFetchWord nbits w).data = s.data := rfl
@[simp] theorem withFetchWord_trace (s : State) (nbits w : Nat) : (s.withFetchWord nbits w).trace = s.trace := rfl

end Sys2Proof.Machine
end

