-- ==== Sys2Proof/Laws/Words.lean ====
section
/-! SUPPORT. The laws of the word accesses: what MemWrite changes, byte by byte, what each byte of MemRead is, and that
MemWrite keeps the canonical form. -/

namespace Sys2Proof.Machine

/-- A byte position of a word read, in numbers. -/
theorem dataByte_eq (m : Memory) (a : Nat) : dataByte m a = if a < 65536 then Memory.read m a else 0x00#8 := rfl

/-- All that one byte position of a word write does. -/
theorem read_writeDataByte (m : Memory) (a b : Nat) (v : Byte) :
    Memory.read (writeDataByte m a v) b = if b = a ∧ b < 65536 then v else Memory.read m b := by
  unfold writeDataByte Config.dataSize
  split
  · rw [Memory.read_write]
    by_cases hb : b = a
    · subst hb; rw [if_pos rfl, if_pos ⟨rfl, ‹_›⟩]
    · rw [if_neg hb, if_neg fun h => hb h.1]
  · rw [if_neg (by omega)]

/-- All that `MemWrite` does (20_memory.md R35): the in-bounds bytes among the three hold the word's, every other address
reads as before. -/
theorem read_memWrite (m : Memory) (a : Nat) (v : Word) (b : Nat) :
    Memory.read (memWrite m a v) b =
      if a ≤ b ∧ b < a + 3 ∧ b < 65536 then wordByte v (b - a) else Memory.read m b := by
  unfold memWrite
  simp only [read_writeDataByte]
  by_cases h : a ≤ b ∧ b < a + 3 ∧ b < 65536
  · rw [if_pos h]
    obtain rfl | rfl | rfl : b = a ∨ b = a + 1 ∨ b = a + 2 := by omega
    · rw [if_neg (by omega), if_neg (by omega), if_pos (by omega), Nat.sub_self]
    · rw [if_neg (by omega), if_pos (by omega), Nat.add_sub_cancel_left]
    · rw [if_pos (by omega), Nat.add_sub_cancel_left]
  · rw [if_neg h, if_neg (by omega), if_neg (by omega), if_neg (by omega)]

theorem wf_writeDataByte {m : Memory} (h : Memory.wf Config.dataSize m) (a : Nat) (v : Byte) :
    Memory.wf Config.dataSize (writeDataByte m a v) := by
  unfold writeDataByte
  split
  · exact Memory.wf_write h ‹_› v
  · exact h

/-- `MemWrite` keeps the canonical form, whatever the address. -/
theorem wf_memWrite {m : Memory} (h : Memory.wf Config.dataSize m) (a : Nat) (v : Word) :
    Memory.wf Config.dataSize (memWrite m a v) :=
  wf_writeDataByte (wf_writeDataByte (wf_writeDataByte h _ _) _ _) _ _

/-- Byte `i` of the word `MemRead` returns (20_memory.md R34). -/
theorem wordByte_memRead (m : Memory) (a i : Nat) (hi : i < 3) : wordByte (memRead m a) i = dataByte m (a + i) := by
  unfold wordByte memRead
  obtain rfl | rfl | rfl : i = 0 ∨ i = 1 ∨ i = 2 := by omega
  all_goals
    refine BitVec.eq_of_getLsbD_eq fun j hj => ?_
    simp only [BitVec.getLsbD_extractLsb', BitVec.getLsbD_or, BitVec.getLsbD_setWidth, BitVec.getLsbD_shiftLeft, hj,
      decide_true, Bool.true_and]
  · simp [show j < 24 by omega, show j < 16 by omega, hj]
  · simp [show 8 + j < 24 by omega, show 8 + j < 16 by omega, show j < 24 by omega]
  · simp [show 16 + j < 24 by omega, show 16 + j - 8 = 8 + j by omega, show j < 24 by omega,
      BitVec.getLsbD_of_ge (dataByte m a) (16 + j) (by omega)]

/-- Bytes of a bitwise OR. -/
theorem wordByte_or (v w : Word) (i : Nat) : wordByte (v ||| w) i = wordByte v i ||| wordByte w i := by
  refine BitVec.eq_of_getLsbD_eq fun j hj => ?_
  simp [wordByte, hj]

end Sys2Proof.Machine
end

