-- ==== Sys2Proof/Laws/Step.lean ====
section
/-! SUPPORT. What a step can do, said once: the parts every instruction shares, and the inversion of exec and step. -/

namespace Sys2Proof.Machine

/-- The state an executed instruction leaves, from the data memory its effect leaves. -/
def retired (i : Instr) (m : Memory) (s : State) : State :=
  { pc := s.pc + i.length
    halted := if Config.cap ≤ s.instructionsExecuted + 1 then true else s.halted
    instructionsExecuted := s.instructionsExecuted + 1
    haltCause := if Config.cap ≤ s.instructionsExecuted + 1 then .capReached else s.haltCause
    code := s.code
    data := m
    trace := s.trace ++ [{ pc := s.pc, instr := i }] }

/-- All that the shared end of an instruction does (41_sequencer.md R104 to R106). -/
theorem retire_storeWord (i : Instr) (a : Nat) (v : Word) (s : State) :
    retire i (storeWord a v s) = .next (retired i (memWrite s.data a v) s) := by
  unfold retire capCheck retired
  by_cases h : Config.cap ≤ s.instructionsExecuted + 1
  · rw [if_pos (by simpa using h), if_pos h, if_pos h]; rfl
  · rw [if_neg (by simpa using h), if_neg h, if_neg h]; rfl

/-- Every instruction retires with its effect on data memory, always: no fault, no refusal (60_exceptions.md R151). -/
theorem exec_eq_retired (i : Instr) (s : State) : exec i s = .next (retired i (effect i s.data) s) := by
  cases i <;> exact retire_storeWord _ _ _ _

/-- An effect keeps the canonical form of data memory. -/
theorem wf_effect {m : Memory} (h : Memory.wf Config.dataSize m) (i : Instr) : Memory.wf Config.dataSize (effect i m) := by
  cases i <;> exact wf_memWrite h _ _

/-- An effect writes the bytes of one word and nothing else. -/
theorem read_effect (i : Instr) (m : Memory) (a : Nat) :
    Memory.read (effect i m) a =
      if (destAddr i).toNat ≤ a ∧ a < (destAddr i).toNat + 3 ∧ a < 65536 then
        wordByte (match i with
          | .loadConst _ c => c
          | .readMem _ c => memRead m c.toNat
          | .writeMem b _ => memRead m b.toNat
          | .bitwiseOr b c _ => memRead m b.toNat ||| memRead m c.toNat) (a - (destAddr i).toNat)
      else Memory.read m a := by
  cases i <;> exact read_memWrite _ _ _ _

/-- All that a step can do (41_sequencer.md R107): nothing where the machine is stopped, a halt entry where decoding fails, and
else one executed instruction that lies inside code memory. -/
theorem step_cases (s : State) :
    (s.running = false ∧ step s = .next s) ∨
    (s.running = true ∧ ∃ f, fetch s = .fail f ∧ step s = .next (haltEntry (causeOf f) s)) ∨
    (s.running = true ∧ ∃ i, fetch s = .ok i i.length ∧ s.pc + i.length ≤ Config.codeSize ∧
      step s = .next (retired i (effect i s.data) s)) := by
  unfold step
  cases hr : s.running
  · exact .inl ⟨rfl, by simp⟩
  · cases hf : fetch s with
    | fail f => exact .inr (.inl ⟨rfl, f, rfl, by simp⟩)
    | ok i len =>
      obtain ⟨hl, hle⟩ := decode_ok_length hf
      refine .inr (.inr ⟨rfl, i, by rw [hl], hle, ?_⟩)
      simp [exec_eq_retired]

/-- Running, in plain terms (41_sequencer.md R100). -/
theorem running_iff (s : State) : s.running = true ↔ s.halted = false ∧ s.pc < Config.codeSize := by
  simp [State.running]

/-! ## Runs -/

theorem runFor_zero (s : State) : runFor 0 s = .next s := rfl

theorem runFor_succ (k : Nat) (s t : State) (h : step s = .next t) : runFor (k + 1) s = runFor k t := by
  have hs : Sys2Proof.core.step s = .next t := h
  unfold runFor
  simp only [Host.Core.run, hs]
  rfl

end Sys2Proof.Machine
end

