-- ==== Sys2Proof/Tests/Slice0.lean ====
section
/-! SUPPORT. The model's own tests. Expected results are those of 95_test_vectors.md (its rows are named) or written out by hand from
30_encoding.md R51; no expected value was taken from the model. -/

namespace Sys2Proof.Tests

open Sys2Proof Sys2Proof.Machine

/-- The state a step answers, if it answers one. -/
def nextOf : Host.Outcome State Fault Refusal → Option State
  | .next s => some s
  | .fault _ => none
  | .refused _ => none

/-- A state with the given code bytes at `pc` and the given data bytes from an address on. -/
def stateAt (pc : Nat) (code : List Byte) (addr : Nat) (data : List Byte) : State :=
  { State.reset with
    pc := pc
    code := Memory.storeBytes 65536 [] pc code
    data := Memory.storeBytes 65536 [] addr data }

/-- Data bytes after one step from a state. -/
def dataAfter (s : State) (addrs : List Nat) : Option (List Byte) :=
  (nextOf (step s)).map (fun t => addrs.map (Memory.read t.data))

/-- `pc`, count, `halted` and cause after one step. -/
def statusAfter (s : State) : Option (Nat × Nat × Bool × HaltCause) :=
  (nextOf (step s)).map (fun t => (t.pc, t.instructionsExecuted, t.halted, t.haltCause))

/-! ## WellFormed: an ill-formed record for each check -/

def orRecord : Record := ⟨["bitwise_or"], some 10, some 20, some 30⟩

theorem test_wf_accepts_good_record : orRecord.check = .ok (.bitwiseOr 10 20 30) := by
  simp [orRecord, Record.check, Record.opcode, Mnemonic.ofKey, requireField]

theorem test_wf_refuses_unknown_key : Record.check ⟨["jump"], some 1, some 2, none⟩ = .error .notOneOpcode := by
  simp [Record.check, Record.opcode, Mnemonic.ofKey]

theorem test_wf_refuses_two_keys :
    Record.check ⟨["read_mem", "write_mem"], some 1, some 2, none⟩ = .error .notOneOpcode := by
  simp [Record.check, Record.opcode]

theorem test_wf_refuses_no_key : Record.check ⟨[], some 1, some 2, none⟩ = .error .notOneOpcode := by
  simp [Record.check, Record.opcode]

/-- 30_encoding.md R65's example: `bitwise_or` without `D` (95_test_vectors.md A9). -/
theorem test_wf_refuses_missing_d :
    Record.check ⟨["bitwise_or"], some 10, some 20, none⟩ = .error .missingField := by
  simp [Record.check, Record.opcode, Mnemonic.ofKey, requireField]

theorem test_wf_refuses_negative : Record.check ⟨["read_mem"], some (-1), some 2, none⟩ = .error .outOfRange := by
  simp [Record.check, Record.opcode, Mnemonic.ofKey, requireField]

/-- 30_encoding.md R62: the immediate of LOAD_CONST goes up to 16777215, one less than here. -/
theorem test_wf_refuses_wide_immediate :
    Record.check ⟨["load_const"], some 0, some 16777216, none⟩ = .error .outOfRange := by
  simp [Record.check, Record.opcode, Mnemonic.ofKey, requireField]

/-- 30_encoding.md R62: an address goes up to 536870911, one less than here. -/
theorem test_wf_refuses_wide_address :
    Record.check ⟨["write_mem"], some 536870912, some 0, none⟩ = .error .outOfRange := by
  simp [Record.check, Record.opcode, Mnemonic.ofKey, requireField]

/-! ## Decoding: one word per constructor, written out from 30_encoding.md R51, most significant field first -/

/-- C = 0x0ABCDE at 59:36, B = 10 at 35:7, tag 44; reserved 63:60 all ones (95_test_vectors.md B2 row 1). -/
theorem test_decode_load_const :
    decodeTableWord 64 0b1111000010101011110011011110_00000000000000000000000001010_0101100 =
      some (.loadConst 10 0x0ABCDE) := by decide

/-- Reserved 71:65 all ones, C = 10 at 64:36, B = 20 at 35:7, tag 41 (B2 row 2). -/
theorem test_decode_read_mem :
    decodeTableWord 72 0b1111111_00000000000000000000000001010_00000000000000000000000010100_0101001 =
      some (.readMem 20 10) := by decide

/-- C = 0x10000028 at 64:36 (its top bit is bit 64), B = 20 at 35:7, tag 11. -/
theorem test_decode_write_mem :
    decodeTableWord 72 0b0000000_10000000000000000000000101000_00000000000000000000000010100_0001011 =
      some (.writeMem 20 0x10000028) := by decide

/-- Reserved 95:94 ones, D = 30 at 93:65, C = 20 at 64:36, B = 11 (odd) at 35:7, tag 95. -/
theorem test_decode_bitwise_or :
    decodeTableWord 96
      0b11_00000000000000000000000011110_00000000000000000000000010100_00000000000000000000000001011_1011111 =
      some (.bitwiseOr 11 20 30) := by decide

/-- The neighbours of the four tags (B2 row 10) and tag 0 with bit 7 set (row 8) are no opcodes. -/
theorem test_decode_unknown_neighbours :
    ([0x2D, 0x28, 0x2A, 0x0A, 0x0C, 0x5E, 0x60, 0x80, 0x7F, 0x00] : List Byte).map (fun b => decodeBytes [b]) =
      List.replicate 10 (.fail .unknownOpcode) := by decide

/-- 30_encoding.md R58: the four tags are known and the other 124 of the 128 are not. -/
theorem test_decode_only_four_tags :
    ∀ t : BitVec 7, mnemonicOfTag t ≠ none ↔ t = 44 ∨ t = 41 ∨ t = 11 ∨ t = 95 := by decide

/-- 30_encoding.md R65: a literal in decimal and in hexadecimal (0xABCDE = 703710, by hand: 10*65536 + 11*4096 + 12*256 + 13*16 + 14). -/
theorem test_literals_parse_identically :
    literalValue ['0', 'x', '0', 'A', 'B', 'C', 'D', 'E'] = some 703710 ∧
    literalValue ['7', '0', '3', '7', '1', '0'] = some 703710 ∧ literalValue ['0', 'x'] = none ∧
    literalValue ['1', 'a'] = none ∧ literalValue ['0'] = some 0 := by decide

/-- B2 rows 11, 13, 14, 15, 17, 19: one byte too few. -/
theorem test_decode_truncated :
    [decodeBytes (0x2C :: List.replicate 6 0), decodeBytes (0x29 :: List.replicate 7 0),
      decodeBytes (0x0B :: List.replicate 7 0), decodeBytes (0x5F :: List.replicate 10 0), decodeBytes [0x2C],
      decodeBytes []] = List.replicate 6 (.fail .truncated) := by decide

/-- B1 rows 3, 11, 18, 25: the encoder's bytes. -/
theorem test_encode_rows :
    encode (.loadConst 0x1FFFFFFF 0xFFFFFF) = [0xAC, 0xFF, 0xFF, 0xFF, 0xFF, 0xFF, 0xFF, 0x0F] ∧
    encode (.readMem 0x1FFFFFFE 0x1FFFFFFE) = [0x29, 0xFF, 0xFF, 0xFF, 0xEF, 0xFF, 0xFF, 0xFF, 0x01] ∧
    encode (.writeMem 20 40) = [0x0B, 0x0A, 0x00, 0x00, 0x80, 0x02, 0x00, 0x00, 0x00] ∧
    encode (.bitwiseOr 0x1234567 0x0ABCDEF 0x1555555) =
      [0xDF, 0xB3, 0xA2, 0x91, 0xF0, 0xDE, 0xBC, 0x0A, 0xAA, 0xAA, 0xAA, 0x02] := by decide

/-! ## The instructions, one step each -/

/-- B4 row 1: LOAD_CONST B=10 C=0x0ABCDE. -/
theorem test_load_const_stores_little_endian :
    dataAfter (stateAt 0 [0x2C, 0x05, 0x00, 0x00, 0xE0, 0xCD, 0xAB, 0x00] 9 [0x77]) [9, 10, 11, 12, 13] =
      some [0x77, 0xDE, 0xBC, 0x0A, 0x00] := by decide

/-- B4 row 4: LOAD_CONST B=65534 C=0x123456 writes two bytes and does not wrap. -/
theorem test_load_const_at_top :
    dataAfter (stateAt 0 [0x2C, 0xFF, 0x7F, 0x00, 0x60, 0x45, 0x23, 0x01] 0 [0x11]) [65534, 65535, 65536, 0] =
      some [0x56, 0x34, 0x00, 0x11] := by decide

/-- B5 row 3: READ_MEM B=1 C=0 over overlapping words. -/
theorem test_read_mem_reads_before_writing :
    dataAfter (stateAt 0 [0xA9, 0, 0, 0, 0, 0, 0, 0, 0] 0 [0x01, 0x02, 0x03, 0x04]) [0, 1, 2, 3] =
      some [0x01, 0x01, 0x02, 0x03] := by decide

/-- 43_mem_copy.md R128: READ_MEM B=0 C=65534 writes 56 EF 00 (P3's encoding). -/
theorem test_read_mem_partial_source :
    dataAfter (stateAt 0 [0x29, 0x00, 0x00, 0x00, 0xE0, 0xFF, 0x0F, 0x00, 0x00] 65534 [0x56, 0xEF]) [0, 1, 2] =
      some [0x56, 0xEF, 0x00] := by decide

/-- P1: WRITE_MEM B=20 C=40 copies from B to C. -/
theorem test_write_mem_direction :
    dataAfter (stateAt 17 [0x0B, 0x0A, 0x00, 0x00, 0x80, 0x02, 0x00, 0x00, 0x00] 20 [0xDE, 0xBC, 0x0A])
      [20, 21, 22, 40, 41, 42] = some [0xDE, 0xBC, 0x0A, 0xDE, 0xBC, 0x0A] := by decide

/-- P3: WRITE_MEM B=8 C=65535 writes the low byte only. -/
theorem test_write_mem_at_top :
    dataAfter (stateAt 58 [0x0B, 0x04, 0x00, 0x00, 0xF0, 0xFF, 0x0F, 0x00, 0x00] 8 [0xEE, 0xFF, 0xC0]) [65535, 0, 8] =
      some [0xEE, 0x00, 0xEE] := by decide

/-- P4: BITWISE_OR B=0 C=1 D=1 over overlapping words. -/
theorem test_bitwise_or_overlap :
    dataAfter (stateAt 17 [0x5F, 0, 0, 0, 0x10, 0, 0, 0, 0x02, 0, 0, 0] 0 [0x01, 0x01, 0x02, 0x03]) [0, 1, 2, 3] =
      some [0x01, 0x01, 0x03, 0x03] := by decide

/-- P2's encoding: BITWISE_OR B=10 C=20 D=30 on a word and a zero word; 12 bytes are consumed. -/
theorem test_bitwise_or_advances_by_12 :
    statusAfter (stateAt 16 [0x5F, 0x05, 0, 0, 0x40, 0x01, 0, 0, 0x3C, 0, 0, 0] 10 [0x0F, 0x0F, 0x0F]) =
      some (28, 1, false, .none) := by decide

/-! ## The sequencer -/

/-- B7 row 7: an instruction that ends at CODE_SIZE. -/
theorem test_end_of_code_memory :
    statusAfter (stateAt 65528 [0xAC, 0x02, 0x00, 0x00, 0x30, 0x20, 0x10, 0x00] 0 []) = some (65536, 1, false, .none) := by
  decide

/-- B7 row 8: truncated at 65529. -/
theorem test_truncated_halts : statusAfter (stateAt 65529 [0x2C] 0 []) = some (65529, 0, true, .truncated) := by decide

/-- B7 rows 1 to 3: reset memory, and a byte FF, halt with UNKNOWN_OPCODE at 0. -/
theorem test_unknown_opcode_halts :
    statusAfter State.reset = some (0, 0, true, .unknownOpcode) ∧
    statusAfter (stateAt 0 [0xFF] 0 []) = some (0, 0, true, .unknownOpcode) := by decide

/-- B7 row 5: the 1000th instruction completes and halts with CAP_REACHED. -/
theorem test_cap_at_1000 :
    statusAfter { stateAt 7992 [0xAC, 0xDA, 0x05, 0x00, 0x80, 0x3E, 0x00, 0x00] 0 [] with instructionsExecuted := 999 } =
      some (8000, 1000, true, .capReached) := by decide

/-- B7 row 4: the 999th does not halt. -/
theorem test_no_cap_at_999 :
    statusAfter { stateAt 7984 [0x2C, 0xD9, 0x05, 0x00, 0x70, 0x3E, 0x00, 0x00] 0 [] with instructionsExecuted := 998 } =
      some (7992, 999, false, .none) := by decide

/-- P1's first trace event. -/
theorem test_trace_event :
    (nextOf (step (stateAt 0 [0x2C, 0x05, 0x00, 0x00, 0xE0, 0xCD, 0xAB, 0x00] 0 []))).map State.trace =
      some [⟨0, .loadConst 10 0x0ABCDE⟩] := by decide

/-- withFetchWord places an instruction that the next step runs, after reset. -/
theorem test_with_fetch_word :
    statusAfter (State.reset.withFetchWord 72 0x28000000A0B) = some (9, 1, false, .none) := by decide

/-- 40_decoder.md R95, its worked row 1: the decoder block's ports. -/
theorem test_decoder_ports :
    decoderPorts 0x00ABCDE00000052C#96 8#17 =
      { status := 0, op := 0, tag := 44, b := 10, c := 0x0ABCDE, d := 0, len := 8 } ∧
    (decoderPorts 0x00ABCDE00000052C#96 7#17).status = 2 := by decide

/-- 41_sequencer.md R115: BITWISE_OR at the ports; the address 65536 and beyond make no access. -/
theorem test_sequencer_ports :
    let p := sequencerPorts true (stateAt 0 [0xDF, 0xFF, 0x7F, 0, 0, 0, 0, 0, 0x18, 0, 0, 0] 65535 [0xEE])
    p.trace = { valid := true, pc := 0, op := 3, b := 65535, c := 0, d := 12 } ∧
    p.dataReads = [(65535, 0xEE), (0, 0), (1, 0), (2, 0)] ∧ p.dataWrites = [(12, 0xEE), (13, 0), (14, 0)] := by decide

/-! ## Witnesses: a state and operands that meet the hypotheses of each statement that has some -/

/-- A buffer with an instruction of each length, LOAD_CONST B=10 C=0x0ABCDE, and its reserved bits set in another. -/
def buf8 : Nat → Byte := bufferOf [0x2C, 0x05, 0x00, 0x00, 0xE0, 0xCD, 0xAB, 0x00]
def buf8r : Nat → Byte := bufferOf [0x2C, 0x05, 0x00, 0x00, 0xE0, 0xCD, 0xAB, 0xF0]

def s0 : State := stateAt 0 [0x2C, 0x05, 0x00, 0x00, 0xE0, 0xCD, 0xAB, 0x00] 0 []

theorem step_s0 : ∃ t, step s0 = .next t ∧ t.pc = 8 := by
  cases h : step s0 with
  | next t =>
    have : (nextOf (step s0)).map State.pc = some 8 := by decide
    rw [h] at this
    exact ⟨t, rfl, by simpa [nextOf] using this⟩
  | fault r => cases r
  | refused r =>
    have : (nextOf (step s0)).isSome = true := by decide
    rw [h] at this
    cases this

theorem test_witness_TagIsTheLowSevenBits :
    decode buf8 0 8 = .ok (.loadConst 10 0x0ABCDE) 8 ∧ decode buf8 0 7 = .fail .truncated ∧
    decode (bufferOf [0x00]) 0 1 = .fail .unknownOpcode := by decide

theorem test_witness_UnknownOpcodeExactlyOffTheTable :
    (0 : Nat) < 1 ∧ tagNumber (bufferOf [0x2C] 0) = 44 ∧ tagNumber (bufferOf [0x5E] 0) = 94 := by decide

theorem test_witness_TruncatedExactlyWhenTooShort :
    (0 : Nat) < 8 ∧ TagWithLength (buf8 0) 8 ∧ 8 - 0 = 8 ∧ 7 - 0 < 8 := by
  refine ⟨by decide, .inl ⟨by decide, rfl⟩, rfl, by decide⟩

theorem test_witness_FieldsComeFromTheBytesOfTheTable :
    (buf8 (0 + 0)).toNat % 128 = 44 ∧ 0 + 8 ≤ 8 ∧ (bufferOf [0xA9] (0 + 0)).toNat % 128 = 41 ∧
    (bufferOf [0x0B] (0 + 0)).toNat % 128 = 11 ∧ (bufferOf [0xDF] (0 + 0)).toNat % 128 = 95 := by decide

theorem test_witness_OnlyConsumedBytesDecideTheResult :
    (0 : Nat) < 8 ∧ 3 < 11 ∧ 8 - 0 = 11 - 3 ∧
    (∀ k, k < 8 → buf8 (0 + k) = (fun j => if 3 ≤ j ∧ j < 11 then buf8 (j - 3) else 0xFF#8) (3 + k)) ∧
    decode buf8 0 8 = .ok (.loadConst 10 0x0ABCDE) 8 ∧ decode buf8 0 1 = .fail .truncated := by decide

theorem test_witness_ReservedBitsAreZeroAndIgnored :
    decode buf8 0 8 = .ok (.loadConst 10 0x0ABCDE) 8 ∧ AlikeButReserved .loadConst 0 buf8 buf8r ∧ buf8r 7 ≠ buf8 7 ∧
    s0.running = true ∧ fetch s0 = .ok (.loadConst 10 0x0ABCDE) 8 ∧
    AlikeButReserved .loadConst s0.pc (Memory.read s0.code) (Memory.read (Memory.write s0.code 7 0xF0)) := by
  refine ⟨by decide, ⟨fun k hk => ?_, by decide⟩, by decide, by decide, by decide, ⟨fun k hk => ?_, by decide⟩⟩ <;>
    (have hk' : k + 1 < 8 := by simpa [Mnemonic.length] using hk
     have hk7 : k < 7 := by omega
     interval_cases k <;> decide)

theorem test_witness_FirstByteIsTagAndLowBitOfB : decode buf8 0 8 = .ok (.loadConst 10 0x0ABCDE) 8 := by decide

theorem test_witness_DecodeOfEncodeIsTheInstruction :
    0 + (Instr.loadConst 10 0x0ABCDE).length ≤ 8 ∧ ∀ k, k < 8 → buf8 (0 + k) = (encode (.loadConst 10 0x0ABCDE)).getD k 0 := by
  decide

theorem test_witness_EncodeOfDecodeIsTheBytes :
    decode buf8 0 8 = .ok (.loadConst 10 0x0ABCDE) 8 ∧ buf8 (0 + (8 - 1)) &&& ~~~fieldBitsOfLastByte .loadConst = 0x00#8 := by
  decide

theorem test_witness_EncodeFailsRatherThanTruncates :
    encodeRecord ⟨["load_const"], some 10, some 0xFFFFFF, none⟩ = .ok (encode (.loadConst 10 0xFFFFFF)) ∧
    encodeRecord ⟨["read_mem"], some 20, some 0x1FFFFFFF, none⟩ = .ok (encode (.readMem 20 0x1FFFFFFF)) ∧
    encodeRecord ⟨["write_mem"], some 20, some 40, none⟩ = .ok (encode (.writeMem 20 40)) ∧
    encodeRecord ⟨["bitwise_or"], some 10, some 20, some 30⟩ = .ok (encode (.bitwiseOr 10 20 30)) := by
  simp [encodeRecord, Record.check, Record.opcode, Mnemonic.ofKey, requireField]

theorem test_witness_AssembledProgramDecodesInOrder :
    [orRecord].map Record.check = [Instr.bitwiseOr 10 20 30].map Except.ok ∧
    [Instr.loadConst 1 2, .readMem 3 4][1]? = some (.readMem 3 4) := by
  simp [test_wf_accepts_good_record]

theorem test_witness_AssemblyStopsAtTheFirstBadRecord :
    (∀ r ∈ [orRecord], r.wellFormed = true) ∧
    Record.check ⟨["bitwise_or"], some 10, some 20, none⟩ = .error .missingField :=
  ⟨by simp [Record.wellFormed, test_wf_accepts_good_record], test_wf_refuses_missing_d⟩

/-- A word wholly in bounds beside one at each of the last addresses. -/
theorem test_witness_WordReadsBackWhatWasWritten :
    (65533 : Nat) + 3 ≤ 65536 ∧ ¬(65534 : Nat) + 3 ≤ 65536 ∧ (0 : Nat) + 3 ≤ 3 ∧ memRead (memWrite [] 65534 0x010203) 65534 = 0x000203 ∧
    memRead (memWrite [] 65535 0x010203) 65535 = 0x000003 ∧ memRead (memWrite [] 65536 0x010203) 65536 = 0 := by decide

theorem test_witness_MemoriesThatReadAlikeAreEqual :
    Memory.wf 65536 (Memory.write (Memory.write [] 5 1) 3 2) ∧ Memory.wf 65536 (Memory.write (Memory.write [] 3 2) 5 1) ∧
    ∀ a, Memory.read (Memory.write (Memory.write [] 5 1) 3 2) a = Memory.read (Memory.write (Memory.write [] 3 2) 5 1) a :=
  ⟨by decide, by decide, fun _ => rfl⟩

theorem test_witness_BitwiseOrCommutesAndCopies :
    (∃ t, exec (.bitwiseOr 10 10 30) s0 = .next t) ∧ (∃ t, exec (.bitwiseOr 65536 10 30) s0 = .next t) ∧
    65536 ≤ (65536 : Addr).toNat := ⟨⟨_, exec_eq_retired _ _⟩, ⟨_, exec_eq_retired _ _⟩, by decide⟩

theorem test_witness_CopyOntoItselfChangesNoByte :
    (∃ t, exec (.readMem 65534 65534) s0 = .next t) ∧ (∃ t, exec (.writeMem 65534 65534) s0 = .next t) ∧
    (∃ t, exec (.bitwiseOr 65534 65534 65534) s0 = .next t) :=
  ⟨⟨_, exec_eq_retired _ _⟩, ⟨_, exec_eq_retired _ _⟩, ⟨_, exec_eq_retired _ _⟩⟩

theorem test_witness_StepRunsTheDecodedInstruction :
    s0.running = true ∧ decode (Memory.read s0.code) s0.pc 65536 = .ok (.loadConst 10 0x0ABCDE) 8 := by decide

theorem test_witness_StepRunsTheEncodedInstruction :
    s0.halted = false ∧ s0.pc + (Instr.loadConst 10 0x0ABCDE).length ≤ 65536 ∧
    ∀ k, k < 8 → Memory.read s0.code (s0.pc + k) = (encode (.loadConst 10 0x0ABCDE)).getD k 0 := by decide

/-- At the last place with room for the instruction. -/
theorem test_witness_PlacedWordIsTheNextInstructionRun :
    { s0 with pc := 65524 }.halted = false ∧ { s0 with pc := 65524 }.pc + (Instr.bitwiseOr 1 2 3).length ≤ 65536 := by decide

theorem test_witness_DecodeFailureHaltsAndChangesNothingElse :
    State.reset.halted = false ∧ State.reset.pc < 65536 ∧ (∀ len, ¬TagWithLength (Memory.read State.reset.code State.reset.pc) len) ∧
    TagWithLength (Memory.read (stateAt 65529 [0x2C] 0 []).code (stateAt 65529 [0x2C] 0 []).pc) 8 ∧
    65536 - (stateAt 65529 [0x2C] 0 []).pc < 8 := by
  refine ⟨rfl, by decide, fun len h => ?_, .inl ⟨by decide, rfl⟩, by decide⟩
  have h0 : tagNumber (Memory.read State.reset.code State.reset.pc) = 0 := rfl
  unfold TagWithLength at h
  rw [h0] at h
  simp at h

theorem test_witness_StoppedMachineKeepsItsState :
    (haltEntry .unknownOpcode s0).halted = true ∧ 65536 ≤ { s0 with pc := 65536 }.pc := by decide

theorem test_witness_AdvanceByLengthAndCountByOne :
    s0.running = true ∧ fetch s0 = .ok (.loadConst 10 0x0ABCDE) 8 := by decide

theorem test_witness_PcOnlyMovesForward : s0.running = true ∧ ∃ t, step s0 = .next t :=
  ⟨by decide, step_s0.imp fun _ h => h.1⟩

theorem test_witness_HaltedIsSetInExactlyThreeCases :
    s0.running = true ∧ (∃ t, step s0 = .next t) ∧ State.reset.running = true ∧ fetch State.reset = .fail .unknownOpcode ∧
    (stateAt 65529 [0x2C] 0 []).running = true ∧ fetch (stateAt 65529 [0x2C] 0 []) = .fail .truncated ∧
    { s0 with instructionsExecuted := 999 }.running = true ∧ 1000 ≤ { s0 with instructionsExecuted := 999 }.instructionsExecuted + 1 :=
  ⟨by decide, step_s0.imp fun _ h => h.1, by decide, by decide, by decide, by decide, by decide, by decide⟩

theorem test_witness_EndOfCodeMemoryStopsWithoutHalting :
    let s := stateAt 65528 [0xAC, 0x02, 0x00, 0x00, 0x30, 0x20, 0x10, 0x00] 0 []
    s.running = true ∧ s.haltCause = .none ∧ fetch s = .ok (.loadConst 5 0x010203) 8 ∧
    s.pc + (Instr.loadConst 5 0x010203).length = 65536 ∧ s.instructionsExecuted + 1 < 1000 ∧
    1000 ≤ { s with instructionsExecuted := 999 }.instructionsExecuted + 1 := by decide

theorem load_small : ∃ s, loadImage [0x2C] = .next s := ⟨_, rfl⟩

theorem test_witness_ImageIsLoadedVerbatimAtZero : ([0x2C] : List Byte).length ≤ 65536 := by decide

theorem test_witness_OversizeImageIsRefusedWhole :
    65536 < (List.replicate 65537 (0x00#8)).length ∧ (List.replicate 65536 (0x00#8)).length ≤ 65536 := by
  simp only [List.length_replicate]; omega

theorem test_witness_FetchAlwaysSeesTheLoadedImage : ∃ s, loadImage [0x2C] = .next s := load_small

theorem test_witness_LoadedStateMeetsInvariants : ∃ s, loadImage [0x2C] = .next s := load_small

theorem test_witness_EveryLoadedRunEndsByUnknownOpcodeOrCap : ∃ s, loadImage [0x2C] = .next s := load_small

theorem s0_inv : s0.Inv := by
  refine ⟨by decide, by decide, by decide, by decide, by decide, ⟨fun h => ?_, fun h => ?_⟩⟩ <;> cases h

theorem test_witness_StepKeepsInvariant : s0.Inv ∧ ∃ t, step s0 = .next t := ⟨s0_inv, step_s0.imp fun _ h => h.1⟩

theorem test_witness_StepKeepsHistory : s0.Inv ∧ s0.History ∧ ∃ t, step s0 = .next t :=
  ⟨s0_inv, ⟨rfl, rfl, rfl, by decide⟩, step_s0.imp fun _ h => h.1⟩

theorem run_one : ∃ t, runFor 1 s0 = .next t :=
  step_s0.imp fun t h => by rw [runFor_succ 0 s0 t h.1]; rfl

theorem test_witness_DataNeverSteersControl :
    SameButData s0 { s0 with data := Memory.write s0.data 7 9 } ∧ { s0 with data := Memory.write s0.data 7 9 } ≠ s0 ∧
    ∃ t, runFor 1 s0 = .next t := ⟨⟨rfl, rfl, rfl, rfl, rfl, rfl⟩, by decide, run_one⟩

theorem test_witness_TraceIsNeverReadBack : ∃ t, runFor 1 s0 = .next t := run_one

theorem test_witness_OnlyTheBytesReadReachTheBytesWritten :
    (∃ t, exec (.readMem 20 10) s0 = .next t) ∧ (∃ t, exec (.readMem 20 10) { s0 with data := [(13, 7)] } = .next t) ∧
    (∀ a ∈ bytesRead (.readMem 20 10), Memory.read s0.data a = Memory.read [(13, 7)] a) ∧ 13 ∉ bytesWritten (.readMem 20 10) :=
  ⟨⟨_, exec_eq_retired _ _⟩, ⟨_, exec_eq_retired _ _⟩, by decide, by decide⟩

theorem test_witness_DecoderBlockComputesDecode :
    (0 : Nat) ≤ 8 ∧ 8 - 0 ≤ 65536 ∧
    (∀ k, k < 12 → 0 + k < 8 → winByte 0xFFFFFFFF00ABCDE00000052C#96 k = buf8 (0 + k)) ∧
    decode buf8 0 8 = .ok (.loadConst 10 0x0ABCDE) 8 ∧ decode buf8 0 7 = .fail .truncated := by decide

theorem test_witness_SequencerPortsShowTheStep :
    s0.Inv ∧ s0.running = true ∧ fetch s0 = .ok (.loadConst 10 0x0ABCDE) 8 ∧ (∃ t, tick true s0 = .next t) ∧
    (∃ t, tick false s0 = .next t) ∧ (sequencerPorts true s0).trace.valid = true :=
  ⟨s0_inv, by decide, by decide, step_s0.imp fun _ h => h.1, ⟨_, rfl⟩, by decide⟩

/-- The other clauses: a failing fetch of each kind, a machine stopped at the end of code memory, and an instruction with reads and
writes (BITWISE_OR with an operand at 65535: 20_memory.md R34 reads one byte there). -/
theorem test_witness_SequencerPortsClauses :
    State.reset.running = true ∧ fetch State.reset = .fail .unknownOpcode ∧
    (stateAt 65529 [0x2C] 0 []).running = true ∧ fetch (stateAt 65529 [0x2C] 0 []) = .fail .truncated ∧
    { s0 with pc := 65536 }.running = false ∧
    bytesRead (.bitwiseOr 65535 10 65534) = [65535, 10, 11, 12] ∧ bytesWritten (.bitwiseOr 65535 10 65534) = [65534, 65535] := by
  decide

theorem test_witness_HostReportShowsTheFinalState : (3 : Nat) < 256 - 0 := by decide

theorem test_witness_NoByteLeftIsTruncated : (8 : Nat) ≤ 8 ∧ (8 : Nat) ≤ 65536 := by decide

end Sys2Proof.Tests
end

/-! ## An encoding is read back (30_encoding.md R61, 40_decoder.md R93) -/

namespace Sys2Proof

/-! ### Fields packed one above the other -/

/-- A field of width `w` put right above `lo` bits fills `lo + w` bits. -/
theorem or_shift_lt {u lo w : Nat} (hu : u < 2 ^ lo) (x : BitVec w) : u ||| x.toNat <<< lo < 2 ^ (lo + w) := by
  have hx : x.toNat <<< lo < 2 ^ (lo + w) := by
    rw [Nat.shiftLeft_eq, pow_add, mul_comm]
    exact Nat.mul_lt_mul_of_pos_left x.isLt (by positivity)
  exact Nat.or_lt_two_pow (hu.trans_le (Nat.pow_le_pow_right (by norm_num) (by omega))) hx

/-- What is put above a field does not reach it. -/
theorem bitField_or_shift_above (u x : Nat) {lo w k : Nat} (hk : lo + w ≤ k) :
    bitField (u ||| x <<< k) lo w = bitField u lo w := by
  refine BitVec.eq_of_getLsbD_eq fun j hj => ?_
  simp [getLsbD_bitField, show ¬ k ≤ lo + j by omega]

/-- A field put above everything else is read back. -/
theorem bitField_or_shift_self {u lo w : Nat} (hu : u < 2 ^ lo) (x : BitVec w) :
    bitField (u ||| x.toNat <<< lo) lo w = x := by
  refine BitVec.eq_of_getLsbD_eq fun j hj => ?_
  have hlow : u.testBit (lo + j) = false :=
    Nat.testBit_eq_false_of_lt (hu.trans_le (Nat.pow_le_pow_right (by norm_num) (by omega)))
  rw [getLsbD_bitField, Nat.testBit_or, hlow, Nat.testBit_shiftLeft]
  simp [hj, BitVec.testBit_toNat, BitVec.getLsbD_eq_getElem]

/-! ### The instruction's integer -/

/-- A tag, field B and a field C of width `w` fill `36 + w` bits (30_encoding.md R51). -/
theorem tag_or_fields_lt {t w : Nat} (ht : t < 2 ^ 7) (b : Addr) (c : BitVec w) :
    t ||| b.toNat <<< 7 ||| c.toNat <<< 36 < 2 ^ (36 + w) :=
  or_shift_lt (or_shift_lt ht b) c

/-- Fields B and C are read back from above the tag. -/
theorem bitField_tag_or_fields {t w : Nat} (ht : t < 2 ^ 7) (b : Addr) (c : BitVec w) :
    bitField (t ||| b.toNat <<< 7 ||| c.toNat <<< 36) 7 29 = b ∧
      bitField (t ||| b.toNat <<< 7 ||| c.toNat <<< 36) 36 w = c :=
  ⟨by rw [bitField_or_shift_above _ _ (by norm_num), bitField_or_shift_self ht],
    bitField_or_shift_self (or_shift_lt ht b) c⟩

/-- The integer fits the instruction's bytes (30_encoding.md R50, R51). -/
theorem toInteger_lt (i : Instr) : i.toInteger < 2 ^ (8 * i.length) := by
  have widen {v k n : Nat} (hv : v < 2 ^ k) (hk : k ≤ n) : v < 2 ^ n :=
    hv.trans_le (Nat.pow_le_pow_right (by norm_num) hk)
  cases i with
  | loadConst b c => exact widen (tag_or_fields_lt (by norm_num) b c) (show 36 + 24 ≤ 8 * 8 by norm_num)
  | readMem b c => exact widen (tag_or_fields_lt (by norm_num) b c) (show 36 + 29 ≤ 8 * 9 by norm_num)
  | writeMem b c => exact widen (tag_or_fields_lt (by norm_num) b c) (show 36 + 29 ≤ 8 * 9 by norm_num)
  | bitwiseOr b c d =>
    exact widen (or_shift_lt (tag_or_fields_lt (by norm_num) b c) d) (show 65 + 29 ≤ 8 * 12 by norm_num)

/-- The decoder's fields of the encoder's integer are the instruction (40_decoder.md R86, R93). -/
theorem fieldsOf_toInteger (i : Instr) : fieldsOf i.mnemonic i.toInteger = i := by
  cases i with
  | loadConst b c =>
    obtain ⟨hb, hc⟩ := bitField_tag_or_fields (t := 44) (by norm_num) b c
    simp only [Instr.mnemonic, Instr.toInteger, fieldsOf, hb, hc]
  | readMem b c =>
    obtain ⟨hb, hc⟩ := bitField_tag_or_fields (t := 41) (by norm_num) b c
    simp only [Instr.mnemonic, Instr.toInteger, fieldsOf, hb, hc]
  | writeMem b c =>
    obtain ⟨hb, hc⟩ := bitField_tag_or_fields (t := 11) (by norm_num) b c
    simp only [Instr.mnemonic, Instr.toInteger, fieldsOf, hb, hc]
  | bitwiseOr b c d =>
    obtain ⟨hb, hc⟩ := bitField_tag_or_fields (t := 95) (by norm_num) b c
    have hd := bitField_or_shift_self (tag_or_fields_lt (t := 95) (by norm_num) b c) d
    simp only [Instr.mnemonic, Instr.toInteger, fieldsOf, bitField_or_shift_above _ _ (show 7 + 29 ≤ 65 by norm_num),
      bitField_or_shift_above _ _ (show 36 + 29 ≤ 65 by norm_num), hb, hc, hd]

/-! ### The bytes -/

/-- Bytes read back into an integer give the integer they were cut from, where it fits them. -/
theorem leInteger_of_bytes {buf : Nat → Byte} {base n v : Nat} (hv : v < 2 ^ (8 * n))
    (h : ∀ k, k < n → buf (base + k) = BitVec.ofNat 8 (v >>> (8 * k))) : leInteger buf base n = v := by
  refine Nat.eq_of_testBit_eq fun j => ?_
  rw [testBit_leInteger]
  by_cases hj : j < 8 * n
  · rw [h _ (by omega), BitVec.getLsbD_ofNat, Nat.testBit_shiftRight, Nat.div_add_mod]
    simp [hj, Nat.mod_lt]
  · rw [Nat.testBit_eq_false_of_lt (hv.trans_le (Nat.pow_le_pow_right (by norm_num) (by omega)))]
    simp [hj]

theorem getD_encode {i : Instr} {k : Nat} (hk : k < i.length) :
    (encode i).getD k 0x00#8 = BitVec.ofNat 8 (i.toInteger >>> (8 * k)) :=
  getD_serialize _ _ _ hk

/-- The integer serialized over more bytes than the instruction has starts with the encoding. -/
theorem getD_serialize_toInteger {i : Instr} {n k : Nat} (hn : i.length ≤ n) (hk : k < i.length) :
    (serialize n i.toInteger).getD k 0x00#8 = (encode i).getD k 0x00#8 := by
  rw [getD_serialize _ _ _ (hk.trans_le hn), getD_encode hk]

theorem tagOf_encode (i : Instr) : tagOf ((encode i).getD 0 0x00#8) = i.mnemonic.tag := by
  cases i with
  | loadConst b c => exact (Laws.EncodeShape.loadConst b c).2
  | readMem b c => exact (Laws.EncodeShape.readMem b c).2
  | writeMem b c => exact (Laws.EncodeShape.writeMem b c).2
  | bitwiseOr b c d => exact (Laws.EncodeShape.bitwiseOr b c d).2

/-- The converse of `decode_ok`: an opcode's tag in the first byte, with its length inside the buffer, decodes. -/
theorem decode_eq_ok {buf : Nat → Byte} {base size : Nat} {m : Mnemonic} (htag : mnemonicOfTag (tagOf (buf base)) = some m)
    (hsize : base + m.length ≤ size) : decode buf base size = .ok (fieldsOf m (leInteger buf base m.length)) m.length := by
  have hpos : 8 ≤ m.length := m.length_bounds.1
  rw [decode, if_neg (by omega), htag]
  exact if_neg (by omega)

/-- Wherever an encoding stands, whole inside the buffer, the decoder reads the instruction (40_decoder.md R93, R94). -/
theorem decode_of_holdsEncoding {i : Instr} {buf : Nat → Byte} {base size : Nat} (hsize : base + i.length ≤ size)
    (h : Machine.HoldsEncoding buf base i) : decode buf base size = .ok i i.length := by
  have hpos : 8 ≤ i.length := i.mnemonic.length_bounds.1
  have hfirst : buf base = (encode i).getD 0 0x00#8 := h 0 (by omega)
  have htag : mnemonicOfTag (tagOf (buf base)) = some i.mnemonic := by
    rw [hfirst, tagOf_encode, mnemonicOfTag_tag]
  have hint : leInteger buf base i.length = i.toInteger :=
    leInteger_of_bytes (toInteger_lt i) fun k hk => (h k hk).trans (getD_encode hk)
  calc decode buf base size
      = .ok (fieldsOf i.mnemonic (leInteger buf base i.length)) i.length := decode_eq_ok htag hsize
    _ = .ok i i.length := by rw [hint, fieldsOf_toInteger]

/-- The table's numbering of an encoding's bits decodes to the instruction (00_scope.md R6). -/
theorem decodeTableWord_toInteger (i : Instr) : decodeTableWord (8 * i.length) i.toInteger = some i := by
  have hmax : i.length ≤ Config.maxLen := i.mnemonic.length_bounds.2
  have hok : decodeBytes (serialize Config.maxLen i.toInteger) = .ok i i.length := by
    refine decode_of_holdsEncoding (by rw [length_serialize, Nat.zero_add]; exact hmax) fun k hk => ?_
    rw [bufferOf, Nat.zero_add, getD_serialize_toInteger hmax hk]
  rw [decodeTableWord, Nat.mod_eq_of_lt (toInteger_lt i), hok]

end Sys2Proof

/-! ## A word placed where the step fetches (log 9) -/

namespace Sys2Proof.Machine

/-- Placing an instruction's integer puts its encoding at `pc`, with room for it in code memory. -/
theorem holdsEncoding_withFetchWord {s : State} {i : Instr} (hroom : s.pc + i.length ≤ Config.codeSize) :
    HoldsEncoding (Memory.read (s.withFetchWord (8 * i.length) i.toInteger).code) s.pc i := by
  have hmax : i.length ≤ Config.maxLen := i.mnemonic.length_bounds.2
  intro k hk
  rw [State.withFetchWord, Nat.mod_eq_of_lt (toInteger_lt i), Memory.read_storeBytes, length_serialize,
    if_pos ⟨by omega, by omega, by omega⟩, Nat.add_sub_cancel_left, getD_serialize_toInteger hmax hk]

theorem step_of_fetch_ok {s : State} {i : Instr} {len : Nat} (hr : s.running = true) (hf : fetch s = .ok i len) :
    step s = exec i s := by
  simp [step, hr, hf]

/-- Where an encoding stands at `pc`, whole inside code memory, a machine that is not halted runs the instruction
(41_sequencer.md R107). -/
theorem step_of_holdsEncoding {s : State} {i : Instr} (hh : s.halted = false) (hroom : s.pc + i.length ≤ Config.codeSize)
    (h : HoldsEncoding (Memory.read s.code) s.pc i) : step s = exec i s := by
  have hpos : 8 ≤ i.length := i.mnemonic.length_bounds.1
  exact step_of_fetch_ok ((running_iff s).mpr ⟨hh, by omega⟩) (decode_of_holdsEncoding hroom h)

/-- Settles O27: the placed word is the instruction's encoding at `pc`, and the decoder reads every encoding back. -/
theorem placedWordIsTheNextInstructionRun : Obligations.PlacedWordIsTheNextInstructionRun := by
  intro s i hh hroom
  exact ⟨decodeTableWord_toInteger i, step_of_holdsEncoding hh hroom (holdsEncoding_withFetchWord hroom), rfl⟩

end Sys2Proof.Machine

/-! ## The start of a run (10_state.md R21, 70_reset_and_hazards.md R170 to R172) -/

namespace Sys2Proof.Machine

/-- Settles O35: each start value is the field that the reset state lists, and an empty memory reads 0x00 everywhere. -/
theorem resetValuesAreThoseOfTheTable : Obligations.ResetValuesAreThoseOfTheTable := by
  have hzero : ∀ a, Memory.read [] a = 0x00#8 := fun _ => rfl
  exact ⟨rfl, rfl, rfl, rfl, hzero, hzero, rfl⟩

/-- Settles O39: nothing is listed in either memory, and neither `halted` nor the cap is reached at count 0. -/
theorem resetStateMeetsInvariant : Obligations.ResetStateMeetsInvariant where
  code_wf := Memory.wf_nil _
  data_wf := Memory.wf_nil _
  pc_le := Nat.zero_le _
  count_le := Nat.zero_le _
  halted_iff := by decide
  cap_iff := by decide

/-- A load that is not refused answers the reset state with the image in code memory. -/
theorem eq_of_loadImage {img : List Byte} {s : State} (h : loadImage img = .next s) :
    s = { State.reset with code := Memory.storeBytes Config.codeSize [] 0 img } := by
  unfold loadImage at h
  split at h <;> cases h
  rfl

/-- Settles O40: the load writes code memory alone, byte by byte into its canonical form, and the history of no step at all
is empty. -/
theorem loadedStateMeetsInvariants : Obligations.LoadedStateMeetsInvariants := by
  intro img s h
  obtain rfl := eq_of_loadImage h
  have hcode := Memory.wf_storeBytes (Memory.wf_nil Config.codeSize) 0 img
  have hinv : State.Inv { State.reset with code := Memory.storeBytes Config.codeSize [] 0 img } :=
    { resetStateMeetsInvariant with code_wf := hcode }
  exact ⟨hinv, ⟨rfl, rfl, rfl, by simp [State.reset]⟩, rfl, rfl⟩

end Sys2Proof.Machine

/-! ## What one step answers (41_sequencer.md R107) -/

namespace Sys2Proof.Machine

/-! ### The state an executed instruction leaves, field by field -/

section Retired

variable (i : Instr) (m : Memory) (s : State)

@[simp] theorem retired_pc : (retired i m s).pc = s.pc + i.length := rfl
@[simp] theorem retired_instructionsExecuted : (retired i m s).instructionsExecuted = s.instructionsExecuted + 1 := rfl
@[simp] theorem retired_code : (retired i m s).code = s.code := rfl
@[simp] theorem retired_data : (retired i m s).data = m := rfl
@[simp] theorem retired_trace : (retired i m s).trace = s.trace ++ [{ pc := s.pc, instr := i }] := rfl

theorem retired_halted :
    (retired i m s).halted = (if Config.cap ≤ s.instructionsExecuted + 1 then true else s.halted) := rfl

theorem retired_haltCause :
    (retired i m s).haltCause = (if Config.cap ≤ s.instructionsExecuted + 1 then .capReached else s.haltCause) := rfl

end Retired

/-! ### The three kinds of step, forward and inverted -/

theorem step_of_stopped {s : State} (hr : s.running = false) : step s = .next s := by
  simp [step, hr]

theorem step_of_fetch_fail {s : State} {f : DecodeFailure} (hr : s.running = true) (hf : fetch s = .fail f) :
    step s = .next (haltEntry (causeOf f) s) := by
  simp [step, hr, hf]

theorem step_of_fetch_ok_retired {s : State} {i : Instr} {len : Nat} (hr : s.running = true) (hf : fetch s = .ok i len) :
    step s = .next (retired i (effect i s.data) s) := by
  rw [step_of_fetch_ok hr hf, exec_eq_retired]

/-- The inversion of a step: what the next state can be. -/
theorem step_next_cases {s t : State} (h : step s = .next t) :
    (s.running = false ∧ t = s) ∨
    (s.running = true ∧ ∃ f, fetch s = .fail f ∧ t = haltEntry (causeOf f) s) ∨
    (s.running = true ∧ ∃ i, fetch s = .ok i i.length ∧ s.pc + i.length ≤ Config.codeSize ∧
      t = retired i (effect i s.data) s) := by
  obtain ⟨hr, hs⟩ | ⟨hr, f, hf, hs⟩ | ⟨hr, i, hf, hle, hs⟩ := step_cases s <;> rw [hs] at h <;> cases h
  · exact .inl ⟨hr, rfl⟩
  · exact .inr (.inl ⟨hr, f, hf, rfl⟩)
  · exact .inr (.inr ⟨hr, i, hf, hle, rfl⟩)

/-- Settles O33: the fetch decides which of the three kinds of step it is, and `halted` was false before it. -/
theorem haltedIsSetInExactlyThreeCases : Obligations.HaltedIsSetInExactlyThreeCases := by
  intro s t hr h
  obtain ⟨hstop, -⟩ | ⟨-, f, hf, rfl⟩ | ⟨-, i, hf, -, rfl⟩ := step_next_cases h
  · simp [hr] at hstop
  · cases f <;> simp [hf, causeOf]
  · have hhalted : s.halted = false := ((running_iff s).mp hr).1
    refine ⟨?_, by simp [hf], by simp [hf], fun _ _ _ hcap => if_pos hcap⟩
    simp [hf, retired_halted, hhalted, Config.cap]

end Sys2Proof.Machine

/-! ## Every step keeps the invariant (10_state.md R12 to R17) -/

namespace Sys2Proof.Machine

theorem causeOf_ne_none (f : DecodeFailure) : causeOf f ≠ .none := by cases f <;> decide

theorem causeOf_ne_capReached (f : DecodeFailure) : causeOf f ≠ .capReached := by cases f <;> decide

/-- While `halted` is false no cause is recorded, and so the count is below the cap (10_state.md R15, 60_exceptions.md R143). -/
theorem State.Inv.of_not_halted {s : State} (hs : s.Inv) (hh : s.halted = false) :
    s.haltCause = .none ∧ s.instructionsExecuted < Config.cap := by
  have hcause : s.haltCause = .none := by
    by_contra hne
    simp [hs.halted_iff.mpr hne] at hh
  have hne : s.instructionsExecuted ≠ Config.cap := fun hcap => by
    simp [hs.cap_iff.mpr hcap] at hcause
  exact ⟨hcause, lt_of_le_of_ne hs.count_le hne⟩

/-- Halting on a decode failure: the count is below the cap, and the cause is not the cap's. -/
theorem State.Inv.haltEntry_causeOf {s : State} (hs : s.Inv) (hh : s.halted = false) (f : DecodeFailure) :
    (haltEntry (causeOf f) s).Inv where
  code_wf := hs.code_wf
  data_wf := hs.data_wf
  pc_le := hs.pc_le
  count_le := hs.count_le
  halted_iff := by simp [causeOf_ne_none]
  cap_iff := by
    have hlt := (hs.of_not_halted hh).2
    simp [causeOf_ne_capReached, hlt.ne]

/-- Retiring an instruction that lies inside code memory: the count rises to at most the cap, and meets it exactly when the
cap check records its cause. -/
theorem State.Inv.retired {s : State} (hs : s.Inv) (hh : s.halted = false) {i : Instr}
    (hle : s.pc + i.length ≤ Config.codeSize) {m : Memory} (hm : Memory.wf Config.dataSize m) : (retired i m s).Inv := by
  obtain ⟨hcause, hlt⟩ := hs.of_not_halted hh
  refine ⟨hs.code_wf, hm, hle, hlt, ?_, ?_⟩
  · rw [retired_halted, retired_haltCause, hh, hcause]
    split <;> simp
  · have hmet : Config.cap ≤ s.instructionsExecuted + 1 ↔ s.instructionsExecuted + 1 = Config.cap := by omega
    simp [retired_haltCause, hcause, hmet]

/-- Settles O41, by the three kinds of step: nothing changes, a halt entry, an executed instruction. -/
theorem stepKeepsInvariant : Obligations.StepKeepsInvariant := by
  intro s t hs h
  obtain ⟨-, rfl⟩ | ⟨hr, f, -, rfl⟩ | ⟨hr, i, -, hle, rfl⟩ := step_next_cases h
  · exact hs
  · exact hs.haltEntry_causeOf ((running_iff s).mp hr).1 f
  · exact hs.retired ((running_iff s).mp hr).1 hle (wf_effect hs.data_wf i)

end Sys2Proof.Machine

/-! ## Two machines in lockstep (10_state.md R19, R22, 41_sequencer.md R110) -/

namespace Sys2Proof.Machine

/-- A relation between machines that the two kinds of state change keep, and that holds only between machines that agree on all
that the sequencer's decisions read: `pc`, `halted` and code memory. -/
structure Lockstep (R : State → State → Prop) : Prop where
  pc : ∀ {s t}, R s t → s.pc = t.pc
  halted : ∀ {s t}, R s t → s.halted = t.halted
  code : ∀ {s t}, R s t → s.code = t.code
  haltEntry : ∀ {s t} cause, R s t → R (haltEntry cause s) (haltEntry cause t)
  retired : ∀ {s t} i, R s t → R (retired i (effect i s.data) s) (retired i (effect i t.data) t)

theorem running_congr {s t : State} (hhalted : s.halted = t.halted) (hpc : s.pc = t.pc) : s.running = t.running := by
  rw [State.running, State.running, hhalted, hpc]

theorem fetch_congr {s t : State} (hcode : s.code = t.code) (hpc : s.pc = t.pc) : fetch s = fetch t := by
  rw [fetch, fetch, hcode, hpc]

/-- In lockstep, both machines take the same kind of step. -/
theorem Lockstep.step {R : State → State → Prop} (hR : Lockstep R) {s t s' : State} (hst : R s t) (h : step s = .next s') :
    ∃ t', step t = .next t' ∧ R s' t' := by
  have hrun : s.running = t.running := running_congr (hR.halted hst) (hR.pc hst)
  have hfetch : fetch s = fetch t := fetch_congr (hR.code hst) (hR.pc hst)
  obtain ⟨hr, rfl⟩ | ⟨hr, f, hf, rfl⟩ | ⟨hr, i, hf, -, rfl⟩ := step_next_cases h <;> rw [hrun] at hr
  · exact ⟨t, step_of_stopped hr, hst⟩
  · exact ⟨_, step_of_fetch_fail hr (hfetch ▸ hf), hR.haltEntry _ hst⟩
  · exact ⟨_, step_of_fetch_ok_retired hr (hfetch ▸ hf), hR.retired i hst⟩

/-- A run of one machine is matched by a run of the other, of as many steps. -/
theorem Lockstep.runFor {R : State → State → Prop} (hR : Lockstep R) (k : Nat) {s t s' : State} (hst : R s t)
    (h : runFor k s = .next s') : ∃ t', runFor k t = .next t' ∧ R s' t' := by
  induction k generalizing s t with
  | zero =>
    cases h
    exact ⟨t, rfl, hst⟩
  | succ k ih =>
    obtain ⟨s₁, hs⟩ : ∃ s₁, Machine.step s = .next s₁ := by
      obtain ⟨-, hs⟩ | ⟨-, f, -, hs⟩ | ⟨-, i, -, -, hs⟩ := step_cases s <;> exact ⟨_, hs⟩
    obtain ⟨t₁, ht, hst₁⟩ := hR.step hst hs
    rw [runFor_succ k s s₁ hs] at h
    rw [runFor_succ k t t₁ ht]
    exact ih hst₁ h

/-! ### Data memory steers nothing -/

theorem SameButData.haltEntry {s t : State} (h : SameButData s t) (cause : HaltCause) :
    SameButData (haltEntry cause s) (haltEntry cause t) :=
  ⟨h.pc, rfl, h.count, rfl, h.code, h.trace⟩

/-- Whatever an instruction makes of the two data memories, it leaves the rest alike. -/
theorem SameButData.retired {s t : State} (h : SameButData s t) (i : Instr) (m m' : Memory) :
    SameButData (retired i m s) (retired i m' t) := by
  constructor <;> simp [retired_halted, retired_haltCause, h.pc, h.halted, h.count, h.cause, h.code, h.trace]

theorem lockstep_sameButData : Lockstep SameButData where
  pc h := h.pc
  halted h := h.halted
  code h := h.code
  haltEntry cause h := h.haltEntry cause
  retired i h := h.retired i _ _

/-- Settles O45: two machines that differ in data memory alone run in lockstep. -/
theorem dataNeverSteersControl : Obligations.DataNeverSteersControl :=
  fun k _ _ _ hst h => lockstep_sameButData.runFor k hst h

/-! ### The trace is only appended to -/

/-- The second machine is the first with `past'` in the place of `past`, after which both have appended the same events. -/
def SameButPast (past past' : List TraceEvent) (s t : State) : Prop :=
  ∃ new, s.trace = past ++ new ∧ t = { s with trace := past' ++ new }

theorem lockstep_sameButPast (past past' : List TraceEvent) : Lockstep (SameButPast past past') where
  pc := by rintro s _ ⟨new, -, rfl⟩; rfl
  halted := by rintro s _ ⟨new, -, rfl⟩; rfl
  code := by rintro s _ ⟨new, -, rfl⟩; rfl
  haltEntry := by rintro s _ cause ⟨new, htrace, rfl⟩; exact ⟨new, htrace, rfl⟩
  retired := by
    rintro s _ i ⟨new, htrace, rfl⟩
    refine ⟨new ++ [{ pc := s.pc, instr := i }], ?_, ?_⟩
    · rw [retired_trace, htrace, List.append_assoc]
    · rw [← List.append_assoc]
      rfl

/-- Settles O46: a machine and the same machine with another trace run in lockstep, both from an empty list of new events. -/
theorem traceIsNeverReadBack : Obligations.TraceIsNeverReadBack := by
  intro k s t past h
  have hstart : SameButPast s.trace past s { s with trace := past } := ⟨[], by simp, by simp⟩
  obtain ⟨_, hrun, new, htrace, rfl⟩ := (lockstep_sameButPast s.trace past).runFor k hstart h
  exact ⟨new, htrace, hrun⟩

end Sys2Proof.Machine

/-! ## The canonical form of a memory is unique (20_memory.md R30, log 18) -/

namespace Sys2Proof.Machine

/-- Among rising addresses, an entry is what its address reads as. -/
theorem Memory.read_of_mem {m : Memory} (hs : m.Pairwise (fun c d => c.1 < d.1)) {c : Host.Cell} (hc : c ∈ m) :
    Memory.read m c.1 = c.2 := by
  induction m with
  | nil => cases hc
  | cons d rest ih =>
    obtain ⟨hd, hrest⟩ := List.pairwise_cons.mp hs
    obtain rfl | hc := List.mem_cons.mp hc
    · exact if_pos rfl
    · rw [← ih hrest hc]
      exact if_neg (hd c hc).ne

/-- An address that does not read 0x00 has an entry, with the byte it reads as. -/
theorem Memory.mem_of_read_ne_zero {m : Memory} {a : Nat} (h : Memory.read m a ≠ 0x00#8) : (a, Memory.read m a) ∈ m := by
  induction m with
  | nil => exact absurd rfl h
  | cons d rest ih =>
    obtain ⟨k, x⟩ := d
    unfold Memory.read at h ⊢
    split
    · rename_i hk
      simp [hk]
    · rename_i hk
      rw [if_neg hk] at h
      exact List.mem_cons_of_mem _ (ih h)

/-- The entries of a canonical memory are the non-zero bytes it reads as. -/
theorem Memory.mem_iff_read {size : Nat} {m : Memory} (h : Memory.wf size m) (c : Host.Cell) :
    c ∈ m ↔ c.2 ≠ 0x00#8 ∧ Memory.read m c.1 = c.2 := by
  obtain ⟨hs, hcells⟩ := h
  constructor
  · exact fun hc => ⟨(hcells c hc).2, Memory.read_of_mem hs hc⟩
  · rintro ⟨hne, hread⟩
    have hmem : (c.1, Memory.read m c.1) ∈ m := Memory.mem_of_read_ne_zero (hread ▸ hne)
    rwa [hread] at hmem

/-- Settles O17: memories that read alike have the same entries, and a list with strictly rising addresses is determined by
its entries. -/
theorem memoriesThatReadAlikeAreEqual : Obligations.MemoriesThatReadAlikeAreEqual := by
  intro size m m' h h' hread
  have : Std.Antisymm (fun c d : Host.Cell => c.1 < d.1) := ⟨fun _ _ hcd hdc => absurd hcd hdc.asymm⟩
  have : Std.Irrefl (fun c d : Host.Cell => c.1 < d.1) := ⟨fun _ => lt_irrefl _⟩
  refine h.1.eq_of_mem_iff h'.1 fun c => ?_
  rw [Memory.mem_iff_read h, Memory.mem_iff_read h', hread]

end Sys2Proof.Machine

/-! ## A word read back (20_memory.md R34, R35) -/

namespace Sys2Proof.Machine

/-- A word is its three bytes (20_memory.md R32). -/
theorem word_eq_of_wordByte_eq {v w : Word} (h : ∀ i, i < 3 → wordByte v i = wordByte w i) : v = w := by
  refine BitVec.eq_of_getLsbD_eq fun j hj => ?_
  have hbit (u : Word) : u.getLsbD j = (wordByte u (j / 8)).getLsbD (j % 8) := by
    simp [wordByte, Nat.mod_lt, Nat.div_add_mod]
  rw [hbit v, hbit w, h _ (by omega)]

theorem wordByte_and (v w : Word) (i : Nat) : wordByte (v &&& w) i = wordByte v i &&& wordByte w i := by
  refine BitVec.eq_of_getLsbD_eq fun j hj => ?_
  simp [wordByte, hj]

/-- A word read is a function of the three bytes read. -/
theorem memRead_congr {m m' : Memory} {a a' : Nat} (h : ∀ i, i < 3 → dataByte m (a + i) = dataByte m' (a' + i)) :
    memRead m a = memRead m' a' :=
  word_eq_of_wordByte_eq fun i hi => by rw [wordByte_memRead _ _ _ hi, wordByte_memRead _ _ _ hi, h i hi]

/-- A byte outside the word written is read as before. -/
theorem dataByte_memWrite_of_outside {m : Memory} {a b : Nat} (v : Word) (hb : b < a ∨ a + 3 ≤ b) :
    dataByte (memWrite m a v) b = dataByte m b := by
  have hread : Memory.read (memWrite m a v) b = Memory.read m b := by rw [read_memWrite, if_neg (by omega)]
  rw [dataByte_eq, dataByte_eq, hread]

/-- A byte of the word written is read back where it is in bounds, and is 0 elsewhere (D7, log 7). -/
theorem wordByte_memRead_memWrite (m : Memory) (a : Nat) (v : Word) {i : Nat} (hi : i < 3) :
    wordByte (memRead (memWrite m a v) a) i = if a + i < 65536 then wordByte v i else 0x00#8 := by
  rw [wordByte_memRead _ _ _ hi, dataByte_eq]
  by_cases hin : a + i < 65536
  · rw [if_pos hin, if_pos hin, read_memWrite, if_pos ⟨by omega, by omega, hin⟩, Nat.add_sub_cancel_left]
  · rw [if_neg hin, if_neg hin]

/-- A mask of ones in the low `n` bytes and zeros above keeps those bytes and clears the others. -/
theorem wordByte_and_lowMask {mask : Word} {n i : Nat} (v : Word)
    (hmask : wordByte mask i = if i < n then 0xFF#8 else 0x00#8) :
    wordByte (v &&& mask) i = if i < n then wordByte v i else 0x00#8 := by
  rw [wordByte_and, hmask]
  split
  · exact BitVec.and_allOnes
  · exact BitVec.and_zero

/-- A word read back where it was written: at 65534 two of its bytes are in bounds, at 65535 one, beyond that none. -/
theorem memRead_memWrite_same (m : Memory) (a : Nat) (v : Word) :
    memRead (memWrite m a v) a =
      if a + 3 ≤ 65536 then v else if a = 65534 then v &&& 0x00FFFF#24 else if a = 65535 then v &&& 0x0000FF#24 else 0#24 := by
  have hmask2 : ∀ i, i < 3 → wordByte 0x00FFFF#24 i = if i < 2 then 0xFF#8 else 0x00#8 := by decide
  have hmask1 : ∀ i, i < 3 → wordByte 0x0000FF#24 i = if i < 1 then 0xFF#8 else 0x00#8 := by decide
  refine word_eq_of_wordByte_eq fun i hi => ?_
  rw [wordByte_memRead_memWrite m a v hi]
  split_ifs with hin hall htwo hone hall htwo hone
  · rfl
  · rw [wordByte_and_lowMask v (hmask2 i hi), if_pos (by omega)]
  · rw [wordByte_and_lowMask v (hmask1 i hi), if_pos (by omega)]
  · omega
  · omega
  · rw [wordByte_and_lowMask v (hmask2 i hi), if_neg (by omega)]
  · rw [wordByte_and_lowMask v (hmask1 i hi), if_neg (by omega)]
  · simp [wordByte]

/-- Settles O16: both words are compared byte by byte, and no byte of a word elsewhere is among those written. -/
theorem wordReadsBackWhatWasWritten : Obligations.WordReadsBackWhatWasWritten := by
  intro m a v
  refine ⟨memRead_memWrite_same m a v, fun b hb => memRead_congr fun i hi => ?_⟩
  exact dataByte_memWrite_of_outside v (by omega)

end Sys2Proof.Machine

/-! ## Code memory is the loaded image throughout a run (20_memory.md R44) -/

namespace Sys2Proof.Machine

/-- A step always answers a next state: no fault, no refusal (60_exceptions.md R151). -/
theorem exists_step_next (s : State) : ∃ t, step s = .next t := by
  obtain ⟨-, hs⟩ | ⟨-, f, -, hs⟩ | ⟨-, i, -, -, hs⟩ := step_cases s <;> exact ⟨_, hs⟩

/-- What every step keeps, every run keeps; and every run answers a next state. -/
theorem runFor_keeps {P : State → Prop} (hstep : ∀ s t, P s → step s = .next t → P t) (k : Nat) {s : State} (hs : P s) :
    ∃ t, runFor k s = .next t ∧ P t := by
  induction k generalizing s with
  | zero => exact ⟨s, runFor_zero s, hs⟩
  | succ k ih =>
    obtain ⟨s₁, h⟩ := exists_step_next s
    rw [runFor_succ k s s₁ h]
    exact ih (hstep s s₁ hs h)

/-- No step writes code memory. -/
theorem step_code {s t : State} (h : step s = .next t) : t.code = s.code := by
  obtain ⟨-, rfl⟩ | ⟨-, f, -, rfl⟩ | ⟨-, i, -, -, rfl⟩ := step_next_cases h <;> rfl

/-- A load that is not refused has an image that fits code memory. -/
theorem length_le_of_loadImage {img : List Byte} {s : State} (h : loadImage img = .next s) : img.length ≤ 65536 := by
  unfold loadImage at h
  split at h
  · assumption
  · cases h

/-- After a load, code memory reads as the image and the zero fill (70_reset_and_hazards.md R172). -/
theorem read_code_of_loadImage {img : List Byte} {s : State} (h : loadImage img = .next s) (a : Nat) :
    Memory.read s.code a = img.getD a 0x00#8 := by
  have hlen : img.length ≤ 65536 := length_le_of_loadImage h
  obtain rfl := eq_of_loadImage h
  rw [Memory.read_storeBytes, Config.codeSize]
  by_cases ha : a < img.length
  · rw [if_pos ⟨by omega, by omega, by omega⟩, Nat.sub_zero]
  · rw [if_neg (by omega), List.getD_eq_default _ _ (by omega)]
    rfl

/-- Settles O38: code memory after any number of steps is the one that was loaded. -/
theorem fetchAlwaysSeesTheLoadedImage : Obligations.FetchAlwaysSeesTheLoadedImage := by
  intro img s k h
  obtain ⟨t, hrun, hcode⟩ := runFor_keeps (P := fun t => t.code = s.code) (fun _ _ hc ht => (step_code ht).trans hc) k rfl
  exact ⟨t, hrun, fun a => hcode ▸ read_code_of_loadImage h a⟩

end Sys2Proof.Machine

/-! ## The assembler (30_encoding.md R63, R65) -/

namespace Sys2Proof

/-! ### The image of a program -/

@[simp] theorem length_encode (i : Instr) : (encode i).length = i.length := length_serialize _ _

/-- The image is as long as its instructions together. -/
theorem length_image (is : List Instr) : (image is).length = (is.map Instr.length).sum := by
  induction is with
  | nil => rfl
  | cons i is ih => simp [image, ih]

theorem image_append (is js : List Instr) : image (is ++ js) = image is ++ image js := by
  induction is with
  | nil => rfl
  | cons i is ih => simp [image, ih]

/-- The offset of an instruction is the length of the image of those before it. -/
theorem offsetOf_eq_length_image_take (is : List Instr) (k : Nat) : offsetOf is k = (image (is.take k)).length := by
  induction is generalizing k with
  | nil => simp [offsetOf, image]
  | cons i is ih =>
    cases k with
    | zero => rfl
    | succ k => simp [offsetOf, image, ih]

/-- Bytes put between others stand where the ones before them end. -/
theorem bufferOf_append_left_right (pre mid post : List Byte) {j : Nat} (hj : j < mid.length) :
    bufferOf (pre ++ mid ++ post) (pre.length + j) = mid.getD j 0x00#8 := by
  have hlt : pre.length + j < (pre ++ mid).length := by simpa using hj
  rw [bufferOf, List.getD_append _ _ _ _ hlt, List.getD_append_right _ _ _ _ (by omega), Nat.add_sub_cancel_left]

/-- An instruction of a program cuts its image in three: what stands before its encoding, the encoding, what follows. -/
theorem image_eq_append_encode {is : List Instr} {k : Nat} {i : Instr} (h : is[k]? = some i) :
    image is = image (is.take k) ++ encode i ++ image (is.drop (k + 1)) := by
  obtain ⟨hk, rfl⟩ := List.getElem?_eq_some_iff.mp h
  calc image is
      = image (is.take k ++ is[k] :: is.drop (k + 1)) := by rw [← List.drop_eq_getElem_cons hk, List.take_append_drop]
    _ = image (is.take k) ++ encode is[k] ++ image (is.drop (k + 1)) := by rw [image_append, image, List.append_assoc]

/-- Every instruction of a program is read back at its offset in the image. -/
theorem decode_image {is : List Instr} {k : Nat} {i : Instr} (h : is[k]? = some i) :
    decode (bufferOf (image is)) (offsetOf is k) (image is).length = .ok i i.length := by
  rw [offsetOf_eq_length_image_take, image_eq_append_encode h]
  refine decode_of_holdsEncoding (by simp) fun j hj => ?_
  exact bufferOf_append_left_right _ _ _ (by simpa using hj)

/-! ### Records -/

theorem encodeRecord_of_check_ok {r : Record} {i : Instr} (h : r.check = .ok i) : encodeRecord r = .ok (encode i) := by
  simp [encodeRecord, h]

theorem encodeRecord_of_check_error {r : Record} {e : ValidationError} (h : r.check = .error e) :
    encodeRecord r = .error e := by
  simp [encodeRecord, h]

theorem Record.wellFormed_iff {r : Record} : r.wellFormed = true ↔ ∃ i, r.check = .ok i := by
  unfold Record.wellFormed
  cases r.check <;> simp

/-- Records that validation accepts assemble to the image of their instructions, whatever position is counted from. -/
theorem assembleFrom_of_check_ok {rs : List Record} {is : List Instr} (h : rs.map Record.check = is.map Except.ok)
    (k : Nat) : assembleFrom k rs = .ok (image is) := by
  induction rs generalizing is k with
  | nil =>
    obtain rfl : is = [] := by simpa using h.symm
    rfl
  | cons r rs ih =>
    cases is with
    | nil => cases h
    | cons i is =>
      obtain ⟨hr, hrs⟩ := List.cons.inj h
      rw [assembleFrom, encodeRecord_of_check_ok hr, ih hrs]
      rfl

/-- Past well-formed records, the first one that validation refuses is reported with its position. -/
theorem assembleFrom_of_check_error {good : List Record} (hgood : ∀ r ∈ good, r.wellFormed = true) {bad : Record}
    {e : ValidationError} (hbad : bad.check = .error e) (rest : List Record) (k : Nat) :
    assembleFrom k (good ++ bad :: rest) = .error (k + good.length, e) := by
  induction good generalizing k with
  | nil =>
    rw [List.nil_append, assembleFrom, encodeRecord_of_check_error hbad]
    rfl
  | cons r good ih =>
    obtain ⟨hr, hgood⟩ := List.forall_mem_cons.mp hgood
    obtain ⟨i, hi⟩ := Record.wellFormed_iff.mp hr
    rw [List.cons_append, assembleFrom, encodeRecord_of_check_ok hi, ih hgood, List.length_cons, Nat.add_right_comm,
      Nat.add_assoc]

/-- Settles O13: an instruction's offset is the length of the image before it, and there its encoding stands, which the decoder
reads back. -/
theorem assembledProgramDecodesInOrder : Obligations.AssembledProgramDecodesInOrder := by
  refine ⟨fun rs is h => assembleFrom_of_check_ok h 0, length_image, fun is k i h => ⟨?_, decode_image h⟩⟩
  rw [offsetOf_eq_length_image_take, length_image]

/-- Settles O15: the position counted from 0 is the number of records before the refused one. -/
theorem assemblyStopsAtTheFirstBadRecord : Obligations.AssemblyStopsAtTheFirstBadRecord := by
  intro good bad rest e hgood hbad
  rw [assemble, assembleFrom_of_check_error hgood hbad, Nat.zero_add]

end Sys2Proof

/-! ## The integer and the bytes of an instruction (30_encoding.md R51, R52, R55, R57, R61) -/

namespace Sys2Proof

/-! ### Tag and fields as a sum -/

/-- A field put above what is below it is added to it. -/
theorem or_shift_eq_add {u lo : Nat} (hu : u < 2 ^ lo) (x : Nat) : u ||| x <<< lo = u + x * 2 ^ lo := by
  rw [Nat.or_comm, ← Nat.shiftLeft_add_eq_or_of_lt hu, Nat.shiftLeft_eq, Nat.add_comm]

/-- One form for all opcodes: a field that the opcode does not have, or bits above its field C, contribute 0. -/
theorem toInteger_eq_or (i : Instr) :
    i.toInteger = i.mnemonic.tag.toNat ||| i.fieldB.toNat <<< 7 ||| i.fieldC.toNat <<< 36 ||| i.fieldD.toNat <<< 65 := by
  cases i with
  | loadConst b c =>
    have hc : (c.setWidth 29).toNat = c.toNat := by rw [BitVec.toNat_setWidth]; omega
    simp [Instr.toInteger, Instr.mnemonic, Mnemonic.tag, Instr.fieldB, Instr.fieldC, Instr.fieldD, hc]
  | readMem b c => simp [Instr.toInteger, Instr.mnemonic, Mnemonic.tag, Instr.fieldB, Instr.fieldC, Instr.fieldD]
  | writeMem b c => simp [Instr.toInteger, Instr.mnemonic, Mnemonic.tag, Instr.fieldB, Instr.fieldC, Instr.fieldD]
  | bitwiseOr b c d => rfl

/-- The instruction's integer is its tag and its three fields, each at its place (30_encoding.md R51, R61). -/
theorem toInteger_eq_add (i : Instr) :
    i.toInteger = i.mnemonic.tag.toNat + i.fieldB.toNat * 2 ^ 7 + i.fieldC.toNat * 2 ^ 36 + i.fieldD.toNat * 2 ^ 65 := by
  have htag : i.mnemonic.tag.toNat < 2 ^ 7 := i.mnemonic.tag.isLt
  rw [toInteger_eq_or, or_shift_eq_add (tag_or_fields_lt htag i.fieldB i.fieldC),
    or_shift_eq_add (or_shift_lt htag i.fieldB), or_shift_eq_add htag]

/-- The encoding read as a little-endian integer is the instruction's integer. -/
theorem leInteger_encode (i : Instr) : leInteger (bufferOf (encode i)) 0 i.length = i.toInteger :=
  leInteger_of_bytes (toInteger_lt i) fun k hk => by rw [Nat.zero_add]; exact getD_encode hk

/-- Settles O9: the bytes hold the instruction's integer, whose parts fill disjoint ranges of bits and so are added up. -/
theorem encodingIsTheIntegerOfTagAndFields : Obligations.EncodingIsTheIntegerOfTagAndFields :=
  fun i => ⟨length_encode i, (leInteger_encode i).trans (toInteger_eq_add i)⟩

/-! ### The first byte -/

theorem toNat_bitField (v lo w : Nat) : (bitField v lo w).toNat = v / 2 ^ lo % 2 ^ w := by
  rw [bitField, BitVec.toNat_ofNat, Nat.shiftRight_eq_div_pow]

@[simp] theorem fieldB_fieldsOf (m : Mnemonic) (v : Nat) : (fieldsOf m v).fieldB = bitField v 7 29 := by cases m <;> rfl

/-- The tag of a byte is its remainder by 128 (40_decoder.md R82). -/
theorem toNat_tagOf (first : Byte) : (tagOf first).toNat = first.toNat % 128 := by
  have hbits : tagOf first = first.setWidth 7 :=
    BitVec.eq_of_getLsbD_eq fun j _ => by rw [getLsbD_tagOf, BitVec.getLsbD_setWidth]
  rw [hbits, BitVec.toNat_setWidth]

/-- Some bytes and those after them: the integer of the whole is cut at the byte boundary. -/
theorem leInteger_add (buf : Nat → Byte) (base k n : Nat) :
    leInteger buf base (k + n) = leInteger buf base k + 2 ^ (8 * k) * leInteger buf (base + k) n := by
  induction n with
  | zero => simp [leInteger]
  | succ n ih =>
    rw [← Nat.add_assoc, leInteger, leInteger, ih, Nat.shiftLeft_eq, Nat.shiftLeft_eq, Nat.add_assoc base]
    ring

/-- The lowest byte of the assembled integer is the first byte. -/
theorem leInteger_mod_256 (buf : Nat → Byte) (base : Nat) {n : Nat} (hn : 0 < n) :
    leInteger buf base n % 256 = (buf base).toNat := by
  obtain ⟨n, rfl⟩ := Nat.exists_eq_add_of_le hn
  have hbyte : (buf base).toNat < 256 := (buf base).isLt
  simp only [leInteger_add buf base 1 n, leInteger, Nat.add_zero, Nat.mul_zero, Nat.shiftLeft_zero]
  omega

/-- Settles O8: bit 7 is where field B begins, in the encoder's sum and in the integer that the decoder takes its fields from. -/
theorem firstByteIsTagAndLowBitOfB : Obligations.FirstByteIsTagAndLowBitOfB := by
  refine ⟨fun i => ?_, fun buf base size i len h => ?_⟩
  · have hpos : 8 ≤ i.length := i.mnemonic.length_bounds.1
    have htag := i.mnemonic.tag.isLt
    rw [getD_encode (by omega), Nat.mul_zero, Nat.shiftRight_zero, BitVec.toNat_ofNat, toInteger_eq_add]
    omega
  · obtain ⟨m, hm, -, -, rfl⟩ := decode_ok h
    have hpos : 8 ≤ m.length := m.length_bounds.1
    have htag : (buf base).toNat % 128 = m.tag.toNat := by rw [← toNat_tagOf, mnemonicOfTag_eq_some hm]
    have hfirst := leInteger_mod_256 buf base (n := m.length) (by omega)
    rw [mnemonic_fieldsOf, fieldB_fieldsOf, toNat_bitField]
    omega

/-! ### The fields, byte by byte -/

/-- A tag in numbers is the tag that the table of opcodes is searched for. -/
theorem mnemonicOfTag_tagOf {first : Byte} {m : Mnemonic} (h : first.toNat % 128 = m.tag.toNat) :
    mnemonicOfTag (tagOf first) = some m := by
  rw [BitVec.eq_of_toNat_eq ((toNat_tagOf first).trans h), mnemonicOfTag_tag]

/-- A field that begins in byte `k`, at its bit `lo`, is a field of the integer of the bytes from `k` on. -/
theorem bitField_leInteger (buf : Nat → Byte) (base k n lo w : Nat) :
    bitField (leInteger buf base (k + n)) (8 * k + lo) w = bitField (leInteger buf (base + k) n) lo w := by
  have hlow : leInteger buf base k / 2 ^ (8 * k) = 0 := Nat.div_eq_of_lt (leInteger_lt buf base k)
  rw [bitField, bitField, Nat.shiftRight_add, Nat.shiftRight_eq_div_pow _ (8 * k), leInteger_add,
    Nat.add_mul_div_left _ _ (by positivity), hlow, Nat.zero_add]

section

variable (buf : Nat → Byte) (base : Nat)

/-- Field B, from bytes 0 to 4 (30_encoding.md R55). -/
theorem toNat_fieldB_bytes {len : Nat} (hlen : 5 ≤ len) :
    (bitField (leInteger buf base len) 7 29).toNat =
      (buf (base + 0)).toNat / 128 + (buf (base + 1)).toNat * 2 + (buf (base + 2)).toNat * 2 ^ 9 +
        (buf (base + 3)).toNat * 2 ^ 17 + (buf (base + 4)).toNat % 16 * 2 ^ 25 := by
  obtain ⟨n, rfl⟩ := Nat.exists_eq_add_of_le hlen
  rw [toNat_bitField, leInteger_add]
  simp only [leInteger, Nat.shiftLeft_eq]
  omega

/-- Field C of 29 bits, from bytes 4 to 8. -/
theorem toNat_fieldC_bytes {len : Nat} (hlen : 9 ≤ len) :
    (bitField (leInteger buf base len) 36 29).toNat =
      (buf (base + 4)).toNat / 16 + (buf (base + 5)).toNat * 2 ^ 4 + (buf (base + 6)).toNat * 2 ^ 12 +
        (buf (base + 7)).toNat * 2 ^ 20 + (buf (base + 8)).toNat % 2 * 2 ^ 28 := by
  obtain ⟨n, rfl⟩ := Nat.exists_eq_add_of_le hlen
  rw [Nat.add_assoc 4 5 n, bitField_leInteger buf base 4 (5 + n) 4, toNat_bitField, leInteger_add]
  simp only [leInteger, Nat.shiftLeft_eq, Nat.add_assoc base, Nat.reduceAdd]
  omega

/-- The immediate of LOAD_CONST, of 24 bits, from bytes 4 to 7. -/
theorem toNat_immediate_bytes :
    (bitField (leInteger buf base 8) 36 24).toNat =
      (buf (base + 4)).toNat / 16 + (buf (base + 5)).toNat * 2 ^ 4 + (buf (base + 6)).toNat * 2 ^ 12 +
        (buf (base + 7)).toNat % 16 * 2 ^ 20 := by
  rw [bitField_leInteger buf base 4 4 4, toNat_bitField]
  simp only [leInteger, Nat.shiftLeft_eq, Nat.add_assoc base, Nat.reduceAdd]
  omega

/-- Field D, from bytes 8 to 11. -/
theorem toNat_fieldD_bytes :
    (bitField (leInteger buf base 12) 65 29).toNat =
      (buf (base + 8)).toNat / 2 + (buf (base + 9)).toNat * 2 ^ 7 + (buf (base + 10)).toNat * 2 ^ 15 +
        (buf (base + 11)).toNat % 64 * 2 ^ 23 := by
  rw [bitField_leInteger buf base 8 4 1, toNat_bitField]
  simp only [leInteger, Nat.shiftLeft_eq, Nat.add_assoc base, Nat.reduceAdd]
  omega

end

/-- Settles O5: the tag selects the opcode, and each of its fields is cut from the integer of the bytes that the field reaches. -/
theorem fieldsComeFromTheBytesOfTheTable : Obligations.FieldsComeFromTheBytesOfTheTable := by
  intro buf base size x fieldB immC fieldC fieldD
  have hok (m : Mnemonic) (htag : x 0 % 128 = m.tag.toNat) (hsize : base + m.length ≤ size) :
      decode buf base size = .ok (fieldsOf m (leInteger buf base m.length)) m.length :=
    decode_eq_ok (mnemonicOfTag_tagOf htag) hsize
  have hB (m : Mnemonic) : (bitField (leInteger buf base m.length) 7 29).toNat = fieldB :=
    toNat_fieldB_bytes buf base (le_trans (by norm_num) m.length_bounds.1)
  have hC {len : Nat} (hlen : 9 ≤ len) : (bitField (leInteger buf base len) 36 29).toNat = fieldC :=
    toNat_fieldC_bytes buf base hlen
  refine ⟨fun htag hsize => ?_, fun htag hsize => ?_, fun htag hsize => ?_, fun htag hsize => ?_⟩
  · exact ⟨_, _, hok .loadConst htag hsize, hB .loadConst, toNat_immediate_bytes buf base⟩
  · exact ⟨_, _, hok .readMem htag hsize, hB .readMem, hC (by decide)⟩
  · exact ⟨_, _, hok .writeMem htag hsize, hB .writeMem, hC (by decide)⟩
  · exact ⟨_, _, _, hok .bitwiseOr htag hsize, hB .bitwiseOr, hC (by decide), toNat_fieldD_bytes buf base⟩

end Sys2Proof

/-! ## Reserved bits (30_encoding.md R57) -/

namespace Sys2Proof

/-- The bits of an opcode's tag and fields end here; from here to the end of the last byte they are reserved (30_encoding.md
R55, R57). -/
def fieldsEnd : Mnemonic → Nat
  | .loadConst => 60
  | .readMem => 65
  | .writeMem => 65
  | .bitwiseOr => 94

/-- The mask of the last byte has a one exactly where the fields have not ended. -/
theorem getLsbD_fieldBitsOfLastByte (m : Mnemonic) {j : Nat} (hj : j < 8) :
    (Machine.fieldBitsOfLastByte m).getLsbD j = decide (8 * (m.length - 1) + j < fieldsEnd m) := by
  cases m <;> decide +revert

/-- The fields fit the instruction's bytes. -/
theorem fieldsEnd_le (m : Mnemonic) : fieldsEnd m ≤ 8 * m.length := by cases m <;> decide

/-! ### Zero on encode -/

theorem toInteger_lt_fieldsEnd (i : Instr) : i.toInteger < 2 ^ fieldsEnd i.mnemonic := by
  cases i with
  | loadConst b c => exact tag_or_fields_lt (by norm_num) b c
  | readMem b c => exact tag_or_fields_lt (by norm_num) b c
  | writeMem b c => exact tag_or_fields_lt (by norm_num) b c
  | bitwiseOr b c d => exact or_shift_lt (tag_or_fields_lt (by norm_num) b c) d

/-- The encoder writes no bit past the fields. -/
theorem reservedBits_encode (i : Instr) :
    (encode i).getD (i.length - 1) 0x00#8 &&& ~~~Machine.fieldBitsOfLastByte i.mnemonic = 0x00#8 := by
  have hpos : 8 ≤ i.length := i.mnemonic.length_bounds.1
  refine BitVec.eq_of_getLsbD_eq fun j hj => ?_
  rw [getD_encode (by omega), BitVec.getLsbD_and, BitVec.getLsbD_not, getLsbD_fieldBitsOfLastByte _ hj, BitVec.getLsbD_ofNat,
    Nat.testBit_shiftRight, ← Instr.length]
  by_cases hin : 8 * (i.length - 1) + j < fieldsEnd i.mnemonic
  · simp [hin]
  · have hbit : i.toInteger.testBit (8 * (i.length - 1) + j) = false :=
      Nat.testBit_eq_false_of_lt ((toInteger_lt_fieldsEnd i).trans_le (Nat.pow_le_pow_right (by norm_num) (by omega)))
    simp [hbit]

/-! ### Ignored on decode -/

theorem bitField_congr {v v' lo w : Nat} (h : ∀ j, j < lo + w → v.testBit j = v'.testBit j) :
    bitField v lo w = bitField v' lo w := by
  refine BitVec.eq_of_getLsbD_eq fun j hj => ?_
  rw [getLsbD_bitField, getLsbD_bitField, h _ (by omega)]

/-- The decoder takes no bit past the fields. -/
theorem fieldsOf_congr {m : Mnemonic} {v v' : Nat} (h : ∀ j, j < fieldsEnd m → v.testBit j = v'.testBit j) :
    fieldsOf m v = fieldsOf m v' := by
  have hfield (lo w : Nat) (hend : lo + w ≤ fieldsEnd m) : bitField v lo w = bitField v' lo w :=
    bitField_congr fun j hj => h j (by omega)
  cases m with
  | loadConst => rw [fieldsOf, fieldsOf, hfield 7 29 (by decide), hfield 36 24 (by decide)]
  | readMem => rw [fieldsOf, fieldsOf, hfield 7 29 (by decide), hfield 36 29 (by decide)]
  | writeMem => rw [fieldsOf, fieldsOf, hfield 7 29 (by decide), hfield 36 29 (by decide)]
  | bitwiseOr =>
    rw [fieldsOf, fieldsOf, hfield 7 29 (by decide), hfield 36 29 (by decide), hfield 65 29 (by decide)]

/-- Bytes alike but for reserved bits agree on every bit before the end of the fields. -/
theorem testBit_leInteger_of_alikeButReserved {m : Mnemonic} {base : Nat} {buf buf' : Nat → Byte}
    (h : Machine.AlikeButReserved m base buf buf') {j : Nat} (hj : j < fieldsEnd m) :
    (leInteger buf' base m.length).testBit j = (leInteger buf base m.length).testBit j := by
  obtain ⟨hbytes, hlast⟩ := h
  have hend := fieldsEnd_le m
  have hbit : (buf' (base + j / 8)).getLsbD (j % 8) = (buf (base + j / 8)).getLsbD (j % 8) := by
    by_cases hk : j / 8 + 1 < m.length
    · rw [hbytes _ hk]
    · have hk : j / 8 = m.length - 1 := by omega
      have hmask : (Machine.fieldBitsOfLastByte m).getLsbD (j % 8) = true := by
        rw [getLsbD_fieldBitsOfLastByte _ (by omega), decide_eq_true_iff]
        omega
      have hand := congrArg (fun b : Byte => b.getLsbD (j % 8)) hlast
      simpa only [BitVec.getLsbD_and, hmask, Bool.and_true, ← hk] using hand
  rw [testBit_leInteger, testBit_leInteger, hbit]

/-- An instruction whose reserved bits differ decodes to the same opcode and fields. -/
theorem decode_of_alikeButReserved {buf buf' : Nat → Byte} {base size : Nat} {i : Instr}
    (h : decode buf base size = .ok i i.length) (halike : Machine.AlikeButReserved i.mnemonic base buf buf') :
    decode buf' base size = .ok i i.length := by
  obtain ⟨m, htag, -, hsize, rfl⟩ := decode_ok h
  rw [mnemonic_fieldsOf] at halike
  have hpos : 8 ≤ m.length := m.length_bounds.1
  have hfirst : buf' base = buf base := halike.1 0 (by omega)
  rw [length_fieldsOf, decode_eq_ok (hfirst ▸ htag) hsize,
    fieldsOf_congr fun j hj => testBit_leInteger_of_alikeButReserved halike hj]

/-- Settles O7: no bit past the fields is written or read, and a step reads code memory through the decoder alone. -/
theorem reservedBitsAreZeroAndIgnored : Obligations.ReservedBitsAreZeroAndIgnored := by
  refine ⟨reservedBits_encode, fun _ _ _ _ _ => decode_of_alikeButReserved, fun s t code' i hr hf halike h => ?_⟩
  have hf' : Machine.fetch { s with code := code' } = .ok i i.length := decode_of_alikeButReserved hf halike
  rw [Machine.step_of_fetch_ok_retired hr hf] at h
  cases h
  exact Machine.step_of_fetch_ok_retired (s := { s with code := code' }) hr hf'

end Sys2Proof

/-! ## Validation of a record (30_encoding.md R62, R65) -/

namespace Sys2Proof

/-- The key that names an opcode (30_encoding.md R64). -/
def Mnemonic.key : Mnemonic → String
  | .loadConst => "load_const"
  | .readMem => "read_mem"
  | .writeMem => "write_mem"
  | .bitwiseOr => "bitwise_or"

theorem Mnemonic.ofKey_eq_some_iff_key {k : String} {m : Mnemonic} : Mnemonic.ofKey k = some m ↔ k = m.key := by
  cases m <;> exact ofKey_eq_some

theorem Record.opcode_eq_ok_iff_key {r : Record} {m : Mnemonic} : r.opcode = .ok m ↔ r.keys = [m.key] := by
  simp [opcode_eq_ok, Mnemonic.ofKey_eq_some_iff_key]

/-- The record states the instruction: the opcode by its one key, and each of the opcode's fields by its very value. -/
def Record.States (r : Record) : Instr → Prop
  | .loadConst b c => r.keys = ["load_const"] ∧ r.b = some (b.toNat : Int) ∧ r.c = some (c.toNat : Int)
  | .readMem b c => r.keys = ["read_mem"] ∧ r.b = some (b.toNat : Int) ∧ r.c = some (c.toNat : Int)
  | .writeMem b c => r.keys = ["write_mem"] ∧ r.b = some (b.toNat : Int) ∧ r.c = some (c.toNat : Int)
  | .bitwiseOr b c d =>
    r.keys = ["bitwise_or"] ∧ r.b = some (b.toNat : Int) ∧ r.c = some (c.toNat : Int) ∧ r.d = some (d.toNat : Int)

theorem Record.States.check {r : Record} {i : Instr} (h : r.States i) : r.check = .ok i := by
  cases i with
  | loadConst b c =>
    obtain ⟨hkey, hb, hc⟩ := h
    have hop : r.opcode = .ok .loadConst := opcode_eq_ok_iff_key.mpr hkey
    simp [Record.check, hop, requireField_eq_ok.mpr hb, requireField_eq_ok.mpr hc]
  | readMem b c =>
    obtain ⟨hkey, hb, hc⟩ := h
    have hop : r.opcode = .ok .readMem := opcode_eq_ok_iff_key.mpr hkey
    simp [Record.check, hop, requireField_eq_ok.mpr hb, requireField_eq_ok.mpr hc]
  | writeMem b c =>
    obtain ⟨hkey, hb, hc⟩ := h
    have hop : r.opcode = .ok .writeMem := opcode_eq_ok_iff_key.mpr hkey
    simp [Record.check, hop, requireField_eq_ok.mpr hb, requireField_eq_ok.mpr hc]
  | bitwiseOr b c d =>
    obtain ⟨hkey, hb, hc, hd⟩ := h
    have hop : r.opcode = .ok .bitwiseOr := opcode_eq_ok_iff_key.mpr hkey
    simp [Record.check, hop, requireField_eq_ok.mpr hb, requireField_eq_ok.mpr hc, requireField_eq_ok.mpr hd]

theorem Record.states_of_check {r : Record} {i : Instr} (h : r.check = .ok i) : r.States i := by
  unfold Record.check at h
  split at h
  case h_1 => cases h
  case h_2 hop | h_3 hop | h_4 hop =>
    split at h <;> cases h
    rename_i b c hb hc
    exact ⟨opcode_eq_ok_iff_key.mp hop, requireField_eq_ok.mp hb, requireField_eq_ok.mp hc⟩
  case h_5 hop =>
    split at h <;> cases h
    rename_i b c d hb hc hd
    exact ⟨opcode_eq_ok_iff_key.mp hop, requireField_eq_ok.mp hb, requireField_eq_ok.mp hc, requireField_eq_ok.mp hd⟩

/-- The encode function answers the encoding of the instruction that the record states, and nothing else. -/
theorem encodeRecord_eq_ok_iff {r : Record} {bs : List Byte} :
    encodeRecord r = .ok bs ↔ ∃ i, r.States i ∧ bs = encode i := by
  constructor
  · intro h
    cases hc : r.check with
    | error e => rw [encodeRecord_of_check_error hc] at h; cases h
    | ok i =>
      rw [encodeRecord_of_check_ok hc] at h
      cases h
      exact ⟨i, Record.states_of_check hc, rfl⟩
  · rintro ⟨i, hi, rfl⟩
    exact encodeRecord_of_check_ok hi.check

/-- A field is present and in range exactly when it is given as the number of a bit vector. -/
theorem exists_eq_some_toNat_iff {w : Nat} {x : Option Int} :
    (∃ v : BitVec w, x = some (v.toNat : Int)) ↔ ∃ v : Int, x = some v ∧ 0 ≤ v ∧ v < 2 ^ w := by
  constructor
  · rintro ⟨v, rfl⟩
    exact ⟨_, rfl, Int.natCast_nonneg _, by exact_mod_cast v.isLt⟩
  · rintro ⟨v, rfl, hpos, hlt⟩
    exact ⟨_, requireField_eq_ok.mp (if_pos ⟨hpos, hlt⟩)⟩

theorem decodeBytes_encode (i : Instr) : decodeBytes (encode i) = .ok i i.length :=
  decode_of_holdsEncoding (by simp) fun k _ => by rw [Nat.zero_add, bufferOf]

/-- Settles O12: the fields of the instruction that the record states are the record's own values, and its encoding is read
back. -/
theorem encodeFailsRatherThanTruncates : Obligations.EncodeFailsRatherThanTruncates := by
  intro r fits
  have hfits {w : Nat} {x : Option Int} : fits w x ↔ ∃ v : BitVec w, x = some (v.toNat : Int) :=
    exists_eq_some_toNat_iff.symm
  refine ⟨?_, fun bs h => ?_⟩
  · simp only [hfits, encodeRecord_eq_ok_iff]
    constructor
    · rintro ⟨-, i, hi, -⟩
      cases i with
      | loadConst b c =>
        obtain ⟨hkey, hb, hc⟩ := hi
        exact .inl ⟨hkey, ⟨b, hb⟩, ⟨c, hc⟩⟩
      | readMem b c =>
        obtain ⟨hkey, hb, hc⟩ := hi
        exact .inr (.inl ⟨hkey, ⟨b, hb⟩, ⟨c, hc⟩⟩)
      | writeMem b c =>
        obtain ⟨hkey, hb, hc⟩ := hi
        exact .inr (.inr (.inl ⟨hkey, ⟨b, hb⟩, ⟨c, hc⟩⟩))
      | bitwiseOr b c d =>
        obtain ⟨hkey, hb, hc, hd⟩ := hi
        exact .inr (.inr (.inr ⟨hkey, ⟨b, hb⟩, ⟨c, hc⟩, ⟨d, hd⟩⟩))
    · rintro (⟨hkey, ⟨b, hb⟩, ⟨c, hc⟩⟩ | ⟨hkey, ⟨b, hb⟩, ⟨c, hc⟩⟩ | ⟨hkey, ⟨b, hb⟩, ⟨c, hc⟩⟩ |
        ⟨hkey, ⟨b, hb⟩, ⟨c, hc⟩, ⟨d, hd⟩⟩)
      · exact ⟨_, .loadConst b c, ⟨hkey, hb, hc⟩, rfl⟩
      · exact ⟨_, .readMem b c, ⟨hkey, hb, hc⟩, rfl⟩
      · exact ⟨_, .writeMem b c, ⟨hkey, hb, hc⟩, rfl⟩
      · exact ⟨_, .bitwiseOr b c d, ⟨hkey, hb, hc, hd⟩, rfl⟩
  · obtain ⟨i, hi, rfl⟩ := encodeRecord_eq_ok_iff.mp h
    have hdec := decodeBytes_encode i
    cases i with
    | loadConst b c =>
      obtain ⟨hkey, hb, hc⟩ := hi
      exact .inl ⟨b, c, hkey, hb, hc, hdec⟩
    | readMem b c =>
      obtain ⟨hkey, hb, hc⟩ := hi
      exact .inr (.inl ⟨b, c, hkey, hb, hc, hdec⟩)
    | writeMem b c =>
      obtain ⟨hkey, hb, hc⟩ := hi
      exact .inr (.inr (.inl ⟨b, c, hkey, hb, hc, hdec⟩))
    | bitwiseOr b c d =>
      obtain ⟨hkey, hb, hc, hd⟩ := hi
      exact .inr (.inr (.inr ⟨b, c, d, hkey, hb, hc, hd, hdec⟩))

end Sys2Proof

/-! ## Numeric literals (30_encoding.md R65) -/

namespace Sys2Proof

theorem digitsValue_append (base acc : Nat) (cs cs' : List Char) :
    digitsValue base acc (cs ++ cs') = (digitsValue base acc cs).bind fun v => digitsValue base v cs' := by
  induction cs generalizing acc with
  | nil => rfl
  | cons c cs ih =>
    rw [List.cons_append, digitsValue, digitsValue]
    cases digitValue base c with
    | none => rfl
    | some v => exact ih _

theorem digitsValue_singleton {base acc v : Nat} {c : Char} (h : digitValue base c = some v) :
    digitsValue base acc [c] = some (acc * base + v) := by
  simp [digitsValue, h]

/-- The digits of a number in a base are read as that number, in any spelling in which every single digit is read. -/
theorem digitsValue_map_toDigits {base : Nat} (hbase : 1 < base) {spell : Char → Char}
    (hdigit : ∀ d, d < base → digitValue base (spell d.digitChar) = some d) (n : Nat) :
    digitsValue base 0 ((Nat.toDigits base n).map spell) = some n := by
  induction n using Nat.strong_induction_on with
  | _ n ih =>
    obtain hlt | hge := Nat.lt_or_ge n base
    · rw [Nat.toDigits_of_lt_base hlt, List.map_singleton, digitsValue_singleton (hdigit n hlt), Nat.zero_mul, Nat.zero_add]
    · have hmod : n % base < base := Nat.mod_lt _ (by omega)
      rw [Nat.toDigits_of_base_le hbase hge, List.map_append, List.map_singleton, digitsValue_append,
        ih _ (Nat.div_lt_self (by omega) hbase), Option.bind_some, digitsValue_singleton (hdigit _ hmod), Nat.div_add_mod']

theorem digitsValue_ten_zero_x (cs : List Char) : digitsValue 10 0 ('0' :: 'x' :: cs) = none := rfl

/-- What reads as decimal digits is a decimal literal: `x` is no decimal digit. -/
theorem literalValue_of_digitsValue {cs : List Char} (hne : cs ≠ []) {n : Nat} (h : digitsValue 10 0 cs = some n) :
    literalValue cs = some n := by
  unfold literalValue
  split
  · exact absurd rfl hne
  · simp [digitsValue_ten_zero_x] at h
  · simp [digitsValue_ten_zero_x] at h
  · exact h

theorem literalValue_hex {cs : List Char} (hne : cs ≠ []) : literalValue ('0' :: 'x' :: cs) = digitsValue 16 0 cs := by
  cases cs with
  | nil => exact absurd rfl hne
  | cons c cs => rfl

/-- Settles O14: every digit is read in both letter cases, and so the digits of the number are read as the number. -/
theorem literalsInBothBasesReadAlike : Obligations.LiteralsInBothBasesReadAlike := by
  intro n
  have hdec : digitsValue 10 0 (Nat.toDigits 10 n) = some n := by
    simpa using digitsValue_map_toDigits (base := 10) (spell := id) (by norm_num) (by decide) n
  have hlower : digitsValue 16 0 (Nat.toDigits 16 n) = some n := by
    simpa using digitsValue_map_toDigits (base := 16) (spell := id) (by norm_num) (by decide) n
  have hupper : digitsValue 16 0 ((Nat.toDigits 16 n).map Char.toUpper) = some n :=
    digitsValue_map_toDigits (by norm_num) (by decide) n
  refine ⟨literalValue_of_digitsValue Nat.toDigits_ne_nil hdec, ?_, ?_⟩
  · rw [literalValue_hex Nat.toDigits_ne_nil, hlower]
  · rw [literalValue_hex (by simp), hupper]

/-! ## Words of the spec -/

/-- Settles O1: the words are fixed, and the decoder is run on each of them. -/
theorem specWordsDecodeAsTheSpecSays : Obligations.SpecWordsDecodeAsTheSpecSays := by
  unfold Obligations.SpecWordsDecodeAsTheSpecSays
  decide

end Sys2Proof

/-! ## The decoder's result (40_decoder.md R82 to R94) -/

namespace Sys2Proof

/-! ### Encoding and decoding are inverse -/

/-- Settles O10: the tag selects the opcode, and the bytes give back the integer that the fields were packed into. -/
theorem decodeOfEncodeIsTheInstruction : Obligations.DecodeOfEncodeIsTheInstruction :=
  fun _ _ _ _ hsize h => decode_of_holdsEncoding hsize h

/-- The bits below a field and the field, put back at its place, are the bits below the field's end. -/
theorem mod_add_bitField {lo w hi : Nat} (h : lo + w = hi) (v : Nat) :
    v % 2 ^ lo + (bitField v lo w).toNat * 2 ^ lo = v % 2 ^ hi := by
  rw [toNat_bitField, ← h, pow_add, Nat.mod_mul, Nat.mul_comm]

/-- Tag and fields are all of an integer that has the opcode's tag and no bit past the fields. -/
theorem toInteger_fieldsOf {m : Mnemonic} {v : Nat} (htag : v % 2 ^ 7 = m.tag.toNat) (hend : v < 2 ^ fieldsEnd m) :
    (fieldsOf m v).toInteger = v := by
  suffices hsum : v % 2 ^ 36 + (fieldsOf m v).fieldC.toNat * 2 ^ 36 + (fieldsOf m v).fieldD.toNat * 2 ^ 65 =
      v % 2 ^ fieldsEnd m by
    rw [toInteger_eq_add, mnemonic_fieldsOf, fieldB_fieldsOf, ← htag, mod_add_bitField (hi := 36) (by norm_num), hsum,
      Nat.mod_eq_of_lt hend]
  have hwithoutD {w : Nat} (hC : (fieldsOf m v).fieldC.toNat = (bitField v 36 w).toNat) (hD : (fieldsOf m v).fieldD = 0#29)
      (hw : 36 + w = fieldsEnd m) :
      v % 2 ^ 36 + (fieldsOf m v).fieldC.toNat * 2 ^ 36 + (fieldsOf m v).fieldD.toNat * 2 ^ 65 = v % 2 ^ fieldsEnd m := by
    rw [hC, hD, BitVec.toNat_zero, Nat.zero_mul, Nat.add_zero, mod_add_bitField hw]
  cases m with
  | loadConst => exact hwithoutD (BitVec.toNat_setWidth_of_le (by norm_num)) rfl rfl
  | readMem => exact hwithoutD rfl rfl rfl
  | writeMem => exact hwithoutD rfl rfl rfl
  | bitwiseOr =>
    have hC : (fieldsOf .bitwiseOr v).fieldC = bitField v 36 29 := rfl
    have hD : (fieldsOf .bitwiseOr v).fieldD = bitField v 65 29 := rfl
    have hw : 65 + 29 = fieldsEnd .bitwiseOr := rfl
    rw [hC, hD, mod_add_bitField (hi := 65) (by norm_num), mod_add_bitField hw]

/-- The reserved bits all lie in the last byte (30_encoding.md R55). -/
theorem lastByte_le_fieldsEnd (m : Mnemonic) : 8 * (m.length - 1) ≤ fieldsEnd m := by cases m <;> decide

/-- With the reserved bits of the last byte zero, the integer of the bytes has no bit past the fields. -/
theorem leInteger_lt_fieldsEnd {m : Mnemonic} {buf : Nat → Byte} {base : Nat}
    (h : buf (base + (m.length - 1)) &&& ~~~Machine.fieldBitsOfLastByte m = 0x00#8) :
    leInteger buf base m.length < 2 ^ fieldsEnd m := by
  refine Nat.lt_pow_two_of_testBit _ fun j hj => ?_
  rw [testBit_leInteger, Bool.and_eq_false_imp, decide_eq_true_iff]
  intro hin
  have hlow := lastByte_le_fieldsEnd m
  have hk : j / 8 = m.length - 1 := by omega
  have hmask : (Machine.fieldBitsOfLastByte m).getLsbD (j % 8) = false := by
    rw [getLsbD_fieldBitsOfLastByte _ (by omega), decide_eq_false_iff_not]
    omega
  have hbit := congrArg (fun b : Byte => b.getLsbD (j % 8)) h
  rw [BitVec.getLsbD_and, BitVec.getLsbD_not, hmask] at hbit
  simpa [hk, Nat.mod_lt] using hbit

/-- The integer of some bytes holds each of them in its place. -/
theorem ofNat_leInteger_shiftRight (buf : Nat → Byte) (base : Nat) {n k : Nat} (hk : k < n) :
    BitVec.ofNat 8 (leInteger buf base n >>> (8 * k)) = buf (base + k) := by
  refine BitVec.eq_of_getLsbD_eq fun j hj => ?_
  rw [BitVec.getLsbD_ofNat, Nat.testBit_shiftRight, testBit_leInteger, show (8 * k + j) / 8 = k by omega,
    show (8 * k + j) % 8 = j by omega]
  simp [hj, show 8 * k + j < 8 * n by omega]

/-- Settles O11: the decoded fields, packed again, are the integer of the very bytes, since its bits past the fields are zero. -/
theorem encodeOfDecodeIsTheBytes : Obligations.EncodeOfDecodeIsTheBytes := by
  intro buf base size i len hdec hzero
  obtain ⟨m, htag, rfl, -, rfl⟩ := decode_ok hdec
  have hpos : 8 ≤ m.length := m.length_bounds.1
  rw [mnemonic_fieldsOf] at hzero
  have hfirst : leInteger buf base m.length % 2 ^ 7 = m.tag.toNat := by
    have hbyte := leInteger_mod_256 buf base (n := m.length) (by omega)
    rw [← mnemonicOfTag_eq_some htag, toNat_tagOf]
    omega
  have hint : (fieldsOf m (leInteger buf base m.length)).toInteger = leInteger buf base m.length :=
    toInteger_fieldsOf hfirst (leInteger_lt_fieldsEnd hzero)
  refine ⟨by simp, fun k hk => ?_⟩
  rw [getD_encode hk, hint, ofNat_leInteger_shiftRight buf base (by simpa using hk)]

/-! ### Which result it is -/

/-- With no byte at the base offset decoding fails as truncated (40_decoder.md R90, D9, log 8). -/
theorem decode_of_size_le {buf : Nat → Byte} {base size : Nat} (h : size ≤ base) :
    decode buf base size = .fail .truncated :=
  if_pos h

section

variable {buf buf' : Nat → Byte} {base base' size size' : Nat}

theorem decode_eq_unknownOpcode_iff (hbase : base < size) :
    decode buf base size = .fail .unknownOpcode ↔ mnemonicOfTag (tagOf (buf base)) = none := by
  rw [decode, if_neg (by omega)]
  cases mnemonicOfTag (tagOf (buf base)) with
  | none => simp
  | some m =>
    by_cases hshort : size - base < m.length
    · simp [hshort]
    · simp [hshort]

theorem decode_eq_truncated_iff (hbase : base < size) :
    decode buf base size = .fail .truncated ↔
      ∃ m, mnemonicOfTag (tagOf (buf base)) = some m ∧ size - base < m.length := by
  rw [decode, if_neg (by omega)]
  cases mnemonicOfTag (tagOf (buf base)) with
  | none => simp
  | some m => simp

theorem exists_decode_eq_ok_iff {n : Nat} :
    (∃ i, decode buf base size = .ok i n) ↔
      ∃ m, mnemonicOfTag (tagOf (buf base)) = some m ∧ n = m.length ∧ base + n ≤ size := by
  constructor
  · rintro ⟨i, h⟩
    obtain ⟨m, htag, rfl, hsize, -⟩ := decode_ok h
    exact ⟨m, htag, rfl, hsize⟩
  · rintro ⟨m, htag, rfl, hsize⟩
    exact ⟨_, decode_eq_ok htag hsize⟩

/-- A failure depends on the tag, where there is a byte to read, and on how many bytes remain. -/
theorem decode_fail_congr (hcount : size - base = size' - base')
    (htag : base < size → tagOf (buf base) = tagOf (buf' base')) {f : DecodeFailure}
    (h : decode buf base size = .fail f) : decode buf' base' size' = .fail f := by
  obtain hbase | hend := Nat.lt_or_ge base size
  · cases f with
    | unknownOpcode =>
      rw [decode_eq_unknownOpcode_iff hbase, htag hbase] at h
      rwa [decode_eq_unknownOpcode_iff (by omega)]
    | truncated =>
      rw [decode_eq_truncated_iff hbase, htag hbase, hcount] at h
      rwa [decode_eq_truncated_iff (by omega)]
  · rw [decode_of_size_le hend] at h
    rw [← h, decode_of_size_le (by omega)]

/-- A decoded instruction depends on the bytes consumed and on how many remain. -/
theorem decode_ok_congr (hcount : size - base = size' - base') {i : Instr} {len : Nat}
    (hbytes : ∀ k, k < len → buf (base + k) = buf' (base' + k)) (h : decode buf base size = .ok i len) :
    decode buf' base' size' = .ok i len := by
  obtain ⟨m, htag, rfl, hsize, rfl⟩ := decode_ok h
  have hpos : 8 ≤ m.length := m.length_bounds.1
  have hfirst : buf base = buf' base' := hbytes 0 (by omega)
  rw [leInteger_congr hbytes]
  exact decode_eq_ok (hfirst ▸ htag) (by omega)

end

/-- Settles O6: a failure looks at the first byte alone, a success at the bytes of the opcode's length. -/
theorem onlyConsumedBytesDecideTheResult : Obligations.OnlyConsumedBytesDecideTheResult :=
  fun _ _ _ _ _ _ _ _ hcount =>
    ⟨fun _ hfirst => decode_fail_congr hcount fun _ => congrArg tagOf hfirst, fun _ _ => decode_ok_congr hcount⟩

/-! ### The tag in numbers -/

theorem mnemonicOfTag_tagOf_eq_some_iff {first : Byte} {m : Mnemonic} :
    mnemonicOfTag (tagOf first) = some m ↔ Machine.tagNumber first = m.tag.toNat :=
  ⟨fun h => by rw [Machine.tagNumber, ← toNat_tagOf, mnemonicOfTag_eq_some h], mnemonicOfTag_tagOf⟩

/-- A byte off the table has none of the four tags (30_encoding.md R53). -/
theorem mnemonicOfTag_tagOf_eq_none_iff {first : Byte} :
    mnemonicOfTag (tagOf first) = none ↔
      Machine.tagNumber first ≠ 44 ∧ Machine.tagNumber first ≠ 41 ∧ Machine.tagNumber first ≠ 11 ∧
        Machine.tagNumber first ≠ 95 := by
  simp only [Option.eq_none_iff_forall_ne_some, ne_eq, mnemonicOfTag_tagOf_eq_some_iff]
  constructor
  · exact fun h => ⟨h .loadConst, h .readMem, h .writeMem, h .bitwiseOr⟩
  · rintro ⟨hload, hread, hwrite, hor⟩ m
    cases m with
    | loadConst => exact hload
    | readMem => exact hread
    | writeMem => exact hwrite
    | bitwiseOr => exact hor

/-- The table's lengths are those of the opcodes that the tags select. -/
theorem tagWithLength_iff {first : Byte} {len : Nat} :
    Machine.TagWithLength first len ↔ ∃ m, mnemonicOfTag (tagOf first) = some m ∧ len = m.length := by
  simp only [mnemonicOfTag_tagOf_eq_some_iff]
  constructor
  · rintro (h | h | h | h)
    · exact ⟨.loadConst, h⟩
    · exact ⟨.readMem, h⟩
    · exact ⟨.writeMem, h⟩
    · exact ⟨.bitwiseOr, h⟩
  · rintro ⟨m, h⟩
    cases m with
    | loadConst => exact .inl h
    | readMem => exact .inr (.inl h)
    | writeMem => exact .inr (.inr (.inl h))
    | bitwiseOr => exact .inr (.inr (.inr h))

/-- Settles O3: no opcode is selected exactly where no tag of the table stands. -/
theorem unknownOpcodeExactlyOffTheTable : Obligations.UnknownOpcodeExactlyOffTheTable :=
  fun _ _ _ hbase => (decode_eq_unknownOpcode_iff hbase).trans mnemonicOfTag_tagOf_eq_none_iff

/-- Settles O4: the length that is compared with the bytes remaining is the one the tag selects. -/
theorem truncatedExactlyWhenTooShort : Obligations.TruncatedExactlyWhenTooShort := by
  intro buf base size hbase
  refine ⟨?_, fun n => ?_⟩
  · rw [decode_eq_truncated_iff hbase]
    constructor
    · rintro ⟨m, htag, hshort⟩
      exact ⟨m.length, tagWithLength_iff.mpr ⟨m, htag, rfl⟩, hshort⟩
    · rintro ⟨len, hlen, hshort⟩
      obtain ⟨m, htag, rfl⟩ := tagWithLength_iff.mp hlen
      exact ⟨m, htag, hshort⟩
  · have hroom : n ≤ size - base ↔ base + n ≤ size := by omega
    rw [exists_decode_eq_ok_iff, tagWithLength_iff, hroom]
    simp only [← and_assoc, exists_and_right]

/-- Bit 7 is no part of the tag (40_decoder.md R82). -/
theorem tagOf_xor_bit7 (first : Byte) : tagOf (first ^^^ 0x80#8) = tagOf first := by
  refine BitVec.eq_of_getLsbD_eq fun j hj => ?_
  have hbit : (0x80#8).getLsbD j = false := by decide +revert
  rw [getLsbD_tagOf, getLsbD_tagOf, BitVec.getLsbD_xor, hbit, Bool.xor_false]

/-- Settles O2: the opcode is selected by the tag alone, which does not change with bit 7. -/
theorem tagIsTheLowSevenBits : Obligations.TagIsTheLowSevenBits := by
  refine ⟨fun first => ?_, ?_⟩
  · rw [toNat_tagOf]
    exact (Nat.and_two_pow_sub_one_eq_mod _ 7).symm
  · intro buf base size flipped
    have htag : tagOf (flipped base) = tagOf (buf base) := by
      rw [show flipped base = buf base ^^^ 0x80#8 from if_pos rfl, tagOf_xor_bit7]
    refine ⟨fun f => decode_fail_congr rfl fun _ => htag.symm, fun i len h => ?_⟩
    obtain ⟨m, hm, rfl, hsize, rfl⟩ := decode_ok h
    refine ⟨_, decode_eq_ok (htag ▸ hm) hsize, by simp, ?_⟩
    rw [mnemonic_fieldsOf, mnemonicOfTag_eq_some hm]

end Sys2Proof

/-! ## The decoder block's ports (40_decoder.md R95) -/

namespace Sys2Proof.Machine

section

variable {win : BitVec 96} {avail : BitVec 17}

/-- The block's outputs when the window decodes. -/
theorem decoderPorts_of_decode_ok {i : Instr} {len : Nat} (h : decode (winByte win) 0 avail.toNat = .ok i len) :
    decoderPorts win avail =
      { status := 0#2, op := opPort win avail, tag := win.extractLsb' 0 7
        b := i.fieldB, c := i.fieldC, d := i.fieldD, len := BitVec.ofNat 4 len } := by
  rw [decoderPorts, h]

/-- The block's outputs when decoding fails: the status, and 0 in what is unused (D11). -/
theorem decoderPorts_of_decode_fail {f : DecodeFailure} (h : decode (winByte win) 0 avail.toNat = .fail f) :
    decoderPorts win avail =
      { status := (causeOf f).toCode, op := opPort win avail, tag := win.extractLsb' 0 7
        b := 0#29, c := 0#29, d := 0#29, len := 0#4 } := by
  rw [decoderPorts, h]

theorem opPort_of_mnemonicOfTag {m : Mnemonic} (havail : 0 < avail.toNat)
    (h : mnemonicOfTag (tagOf (winByte win 0)) = some m) : opPort win avail = m.code := by
  have hne : avail ≠ 0#17 := by rintro rfl; exact absurd havail (by decide)
  rw [opPort, if_neg hne, h]

end

/-- The window's low seven bits are the tag of its first byte. -/
theorem extractLsb'_eq_tagOf (win : BitVec 96) : win.extractLsb' 0 7 = tagOf (winByte win 0) := by
  refine BitVec.eq_of_getLsbD_eq fun j hj => ?_
  rw [getLsbD_tagOf, winByte, BitVec.getLsbD_extractLsb', BitVec.getLsbD_extractLsb']
  simp [hj, show j < 8 by omega]

/-- Settles O48: the window has the bytes that the decoder consumes, and as many remain. -/
theorem decoderBlockComputesDecode : Obligations.DecoderBlockComputesDecode := by
  intro buf base size win hbase hsize hwin p
  have havail : (BitVec.ofNat 17 (size - base)).toNat = size - base := by
    rw [BitVec.toNat_ofNat, Nat.mod_eq_of_lt (by omega)]
  have hfirst (h : base < size) : buf base = winByte win 0 := (hwin 0 (by norm_num) h).symm
  have hop {m : Mnemonic} (h : base < size) (htag : mnemonicOfTag (tagOf (buf base)) = some m) :
      opPort win (BitVec.ofNat 17 (size - base)) = m.code :=
    opPort_of_mnemonicOfTag (by omega) (hfirst h ▸ htag)
  refine ⟨fun i len h => ?_, fun f h => ?_⟩
  · obtain ⟨m, htag, hlen, hin, hi⟩ := decode_ok h
    obtain ⟨hpos, hmax⟩ := m.length_bounds
    have hm : i.mnemonic = m := by rw [hi, mnemonic_fieldsOf]
    have hwindow : decode (winByte win) 0 (BitVec.ofNat 17 (size - base)).toNat = .ok i len :=
      decode_ok_congr (by omega) (fun k hk => by rw [Nat.zero_add, hwin k (by omega) (by omega)]) h
    rw [show p = _ from decoderPorts_of_decode_ok hwindow, hop (by omega) htag, extractLsb'_eq_tagOf, ← hfirst (by omega),
      mnemonicOfTag_eq_some htag, hm]
  · have hwindow : decode (winByte win) 0 (BitVec.ofNat 17 (size - base)).toNat = .fail f :=
      decode_fail_congr (by omega) (fun hlt => congrArg tagOf (hfirst hlt)) h
    rw [show p = _ from decoderPorts_of_decode_fail hwindow]
    exact ⟨by cases f <;> rfl, rfl, fun m => hop, rfl, rfl, rfl, rfl⟩

/-- Settles O51: the decoder asks for a first byte before anything else, and the block passes its failure on. -/
theorem noByteLeftIsTruncated : Obligations.NoByteLeftIsTruncated := by
  refine ⟨fun _ _ _ => decode_of_size_le, ?_⟩
  intro win p
  have hwindow : decode (winByte win) 0 (0#17).toNat = .fail .truncated := decode_of_size_le (by decide)
  rw [show p = _ from decoderPorts_of_decode_fail hwindow]
  exact ⟨rfl, rfl, rfl, rfl, rfl, rfl⟩

end Sys2Proof.Machine

/-! ## A step is the instruction at `pc`, or a halt (41_sequencer.md R101 to R107) -/

namespace Sys2Proof.Machine

/-- Settles O25: the step fetches with this very decode, and executes what it answers. -/
theorem stepRunsTheDecodedInstruction : Obligations.StepRunsTheDecodedInstruction :=
  fun _ _ _ hr hdec => step_of_fetch_ok hr hdec

/-- Settles O26: the decoder reads an encoding back wherever it stands. -/
theorem stepRunsTheEncodedInstruction : Obligations.StepRunsTheEncodedInstruction :=
  fun _ _ hh hroom h => step_of_holdsEncoding hh hroom h

/-- Settles O28: the fetch fails for the reason that the tag and the bytes remaining give, and a halt entry writes the two
registers alone. -/
theorem decodeFailureHaltsAndChangesNothingElse : Obligations.DecodeFailureHaltsAndChangesNothingElse := by
  intro s hh hpc
  have hr : s.running = true := (running_iff s).mpr ⟨hh, hpc⟩
  refine ⟨fun hunknown => ?_, fun len hlen hshort => ?_⟩
  · have hf : fetch s = .fail .unknownOpcode := by
      refine (decode_eq_unknownOpcode_iff hpc).mpr (Option.eq_none_iff_forall_ne_some.mpr fun m hm => ?_)
      exact hunknown _ (tagWithLength_iff.mpr ⟨m, hm, rfl⟩)
    exact step_of_fetch_fail hr hf
  · obtain ⟨m, hm, rfl⟩ := tagWithLength_iff.mp hlen
    have hf : fetch s = .fail .truncated := (decode_eq_truncated_iff hpc).mpr ⟨m, hm, hshort⟩
    exact step_of_fetch_fail hr hf

/-- Settles O30: what the decoder accepts lies inside code memory, and retiring it moves both counters. -/
theorem advanceByLengthAndCountByOne : Obligations.AdvanceByLengthAndCountByOne := by
  intro s i len hr hf
  obtain ⟨rfl, hle⟩ := decode_ok_length hf
  have hle : s.pc + i.length ≤ 65536 := hle
  exact ⟨_, step_of_fetch_ok_retired hr hf, rfl, rfl, rfl, hle, by omega⟩

/-- Settles O32: a decode failure halts in place, and an executed instruction advances by its own length. -/
theorem pcOnlyMovesForward : Obligations.PcOnlyMovesForward := by
  intro s t hr h
  obtain ⟨hstop, -⟩ | ⟨-, f, -, rfl⟩ | ⟨-, i, -, hle, rfl⟩ := step_next_cases h
  · simp [hr] at hstop
  · exact .inl ⟨rfl, rfl, rfl, rfl⟩
  · obtain ⟨hmin, hmax⟩ := i.mnemonic.length_bounds
    exact .inr ⟨Nat.add_le_add_left hmin _, Nat.add_le_add_left hmax _, hle⟩

/-- Stopped, in plain terms: halted, or past the last byte of code memory (41_sequencer.md R100, R109). -/
theorem running_eq_false_iff (s : State) : s.running = false ↔ s.halted = true ∨ Config.codeSize ≤ s.pc := by
  rw [← Bool.not_eq_true, running_iff, not_and_or, Bool.not_eq_false, not_lt]

/-- Settles O34: `pc` leaves code memory, and the cap check alone decides whether `halted` is set. -/
theorem endOfCodeMemoryStopsWithoutHalting : Obligations.EndOfCodeMemoryStopsWithoutHalting := by
  intro s i hr hcause hf hend
  have hhalted : s.halted = false := ((running_iff s).mp hr).1
  refine ⟨_, step_of_fetch_ok_retired hr hf, (running_eq_false_iff _).mpr (.inr hend.ge), fun hbelow => ?_, fun hcap => ?_⟩
  · have hcap : ¬Config.cap ≤ s.instructionsExecuted + 1 := not_le.mpr hbelow
    exact ⟨(if_neg hcap).trans hhalted, (if_neg hcap).trans hcause, hend⟩
  · exact ⟨if_pos hcap, if_pos hcap⟩

end Sys2Proof.Machine

/-! ## The history of a run (41_sequencer.md R104, R108, R110, R112) -/

namespace Sys2Proof.Machine

/-- Events that follow the code go on with one more, which stands where they end. -/
theorem FollowsCode.append_event {code : Memory} {p q : Nat} {es : List TraceEvent} (h : FollowsCode code p es q) {i : Instr}
    (hdec : decode (Memory.read code) q Config.codeSize = .ok i i.length) :
    FollowsCode code p (es ++ [{ pc := q, instr := i }]) (q + i.length) := by
  induction es generalizing p with
  | nil =>
    obtain rfl : p = q := h
    exact ⟨rfl, hdec, rfl⟩
  | cons e es ih =>
    obtain ⟨hpc, he, hrest⟩ := h
    exact ⟨hpc, he, ih hrest⟩

/-- Events that follow the code reach no farther than the longest instructions would. -/
theorem FollowsCode.le_add {code : Memory} {p q : Nat} {es : List TraceEvent} (h : FollowsCode code p es q) :
    q ≤ p + 12 * es.length := by
  induction es generalizing p with
  | nil => exact (show p = q from h).ge
  | cons e es ih =>
    obtain ⟨-, -, hrest⟩ := h
    have hmax : e.instr.length ≤ 12 := e.instr.mnemonic.length_bounds.2
    have := ih hrest
    rw [List.length_cons]
    omega

theorem replay_append (es fs : List TraceEvent) (m : Memory) : replay (es ++ fs) m = replay fs (replay es m) := by
  induction es generalizing m with
  | nil => rfl
  | cons e es ih => exact ih _

/-- From machine start, `pc` is at most 12 bytes per counted instruction (41_sequencer.md R108). -/
theorem State.History.pc_le {s : State} (hs : s.History) : s.pc ≤ 12 * s.instructionsExecuted := by
  simpa [hs.counts] using hs.follows.le_add

/-- Where the longest instruction has room, no instruction is truncated. -/
theorem fetch_ne_truncated {s : State} (hroom : s.pc + 12 ≤ Config.codeSize) : fetch s ≠ .fail .truncated := by
  intro hf
  obtain ⟨m, -, hshort⟩ := (decode_eq_truncated_iff (by omega)).mp hf
  have hmax := m.length_bounds.2
  omega

/-- Below the cap a run from machine start is far from the end of code memory, so decoding fails on an unknown tag only
(41_sequencer.md R112). -/
theorem State.History.eq_unknownOpcode {s : State} (hs : s.History) (hcap : s.instructionsExecuted < Config.cap)
    {f : DecodeFailure} (hf : fetch s = .fail f) : f = .unknownOpcode := by
  have hpc := hs.pc_le
  have hcap : s.instructionsExecuted < 1000 := hcap
  have hroom : s.pc + 12 ≤ 65536 := by omega
  cases f with
  | unknownOpcode => rfl
  | truncated => exact absurd hf (fetch_ne_truncated hroom)

/-- Halting on an unknown tag adds nothing to the history. -/
theorem State.History.haltEntry_unknownOpcode {s : State} (hs : s.History) :
    (haltEntry (causeOf .unknownOpcode) s).History :=
  { hs with not_truncated := nofun }

/-- Retiring the instruction at `pc` adds its event, its count and its effect. -/
theorem State.History.retired {s : State} (hs : s.History) {i : Instr} (hf : fetch s = .ok i i.length) :
    (retired i (effect i s.data) s).History where
  follows := hs.follows.append_event hf
  counts := by simp [hs.counts]
  replays := by
    rw [retired_trace, replay_append, ← hs.replays]
    rfl
  not_truncated := by
    rw [retired_haltCause]
    split
    · decide
    · exact hs.not_truncated

/-- Settles O42, by the three kinds of step; the bound on `pc` that the history itself gives excludes the truncation. -/
theorem stepKeepsHistory : Obligations.StepKeepsHistory := by
  intro s t hinv hs h
  obtain ⟨-, rfl⟩ | ⟨hr, f, hf, rfl⟩ | ⟨-, i, hf, -, rfl⟩ := step_next_cases h
  · exact hs
  · have hcap := (hinv.of_not_halted ((running_iff s).mp hr).1).2
    obtain rfl := hs.eq_unknownOpcode hcap hf
    exact hs.haltEntry_unknownOpcode
  · exact hs.retired hf

end Sys2Proof.Machine

/-! ## Every run stops (41_sequencer.md R108) -/

namespace Sys2Proof.Machine

/-- A run always answers a next state (60_exceptions.md R151). -/
theorem exists_runFor_next (k : Nat) (s : State) : ∃ t, runFor k s = .next t := by
  obtain ⟨t, hrun, -⟩ := runFor_keeps (P := fun _ => True) (fun _ _ _ _ => trivial) k (s := s) trivial
  exact ⟨t, hrun⟩

/-- A machine that still runs after a step ran before it, and has counted one instruction more, below the cap. -/
theorem step_next_running {s t : State} (h : step s = .next t) (hr : t.running = true) :
    s.running = true ∧ t.instructionsExecuted = s.instructionsExecuted + 1 ∧ t.instructionsExecuted < Config.cap := by
  have hhalted : t.halted = false := ((running_iff t).mp hr).1
  obtain ⟨hstop, rfl⟩ | ⟨-, f, -, rfl⟩ | ⟨hrs, i, -, -, rfl⟩ := step_next_cases h
  · simp [hr] at hstop
  · simp at hhalted
  · have hcap : ¬Config.cap ≤ s.instructionsExecuted + 1 := fun hcap => by simp [retired_halted, hcap] at hhalted
    exact ⟨hrs, rfl, not_le.mp hcap⟩

/-- A machine that still runs after one or more steps has counted each of them, below the cap. -/
theorem runFor_succ_running {k : Nat} {s t : State} (h : runFor (k + 1) s = .next t) (hr : t.running = true) :
    s.running = true ∧ t.instructionsExecuted = s.instructionsExecuted + (k + 1) ∧ t.instructionsExecuted < Config.cap := by
  induction k generalizing s with
  | zero =>
    obtain ⟨s₁, hs⟩ := exists_step_next s
    rw [runFor_succ 0 s s₁ hs] at h
    cases h
    exact step_next_running hs hr
  | succ k ih =>
    obtain ⟨s₁, hs⟩ := exists_step_next s
    rw [runFor_succ _ s s₁ hs] at h
    obtain ⟨hr₁, hcount, hcap⟩ := ih h
    obtain ⟨hrs, hcount₁, -⟩ := step_next_running hs hr₁
    exact ⟨hrs, by omega, hcap⟩

/-- Settles O43: 1001 counted instructions would pass the cap. -/
theorem everyRunStopsWithin1001Steps : Obligations.EveryRunStopsWithin1001Steps := by
  intro s
  obtain ⟨t, hrun⟩ := exists_runFor_next 1001 s
  refine ⟨t, hrun, Bool.eq_false_iff.mpr fun hr => ?_⟩
  obtain ⟨-, hcount, hcap⟩ := runFor_succ_running hrun hr
  have hcap : t.instructionsExecuted < 1000 := hcap
  omega

/-- A stop with a history is a halt, on an unknown tag or at the cap: `pc` is too small for the end of code memory
(41_sequencer.md R112). -/
theorem State.History.halted_of_stopped {s : State} (hinv : s.Inv) (hs : s.History) (hstop : s.running = false) :
    s.halted = true ∧ (s.haltCause = .unknownOpcode ∨ s.haltCause = .capReached) := by
  have hhalted : s.halted = true := by
    obtain hhalted | hend := (running_eq_false_iff s).mp hstop
    · exact hhalted
    · have hpc := hs.pc_le
      have hcount : s.instructionsExecuted ≤ 1000 := hinv.count_le
      have hend : 65536 ≤ s.pc := hend
      omega
  refine ⟨hhalted, ?_⟩
  cases hcause : s.haltCause with
  | none => exact absurd hcause (hinv.halted_iff.mp hhalted)
  | unknownOpcode => exact .inl rfl
  | truncated => exact absurd hcause hs.not_truncated
  | capReached => exact .inr rfl

/-- Settles O44: the run stops, and its last state has the invariant and the history that the loaded state began with. -/
theorem everyLoadedRunEndsByUnknownOpcodeOrCap : Obligations.EveryLoadedRunEndsByUnknownOpcodeOrCap := by
  intro img s h
  obtain ⟨hinv, hs, -, -⟩ := loadedStateMeetsInvariants img s h
  obtain ⟨t, hrun, hinv, hs⟩ := runFor_keeps (P := fun s => s.Inv ∧ s.History)
    (fun s t ⟨hinv, hs⟩ ht => ⟨stepKeepsInvariant s t hinv ht, stepKeepsHistory s t hinv hs ht⟩) 1001 ⟨hinv, hs⟩
  have hstop : t.running = false := by
    obtain ⟨t', hrun', hstop⟩ := everyRunStopsWithin1001Steps s
    cases hrun.symm.trans hrun'
    exact hstop
  obtain ⟨hhalted, hcause⟩ := hs.halted_of_stopped hinv hstop
  have hcount : t.instructionsExecuted ≤ 1000 := hinv.count_le
  have hpc := hs.pc_le
  exact ⟨t, hrun, hhalted, hcause, by omega, hcount, hs.replays⟩

end Sys2Proof.Machine

/-! ## The sequencer's ports (41_sequencer.md R115) -/

namespace Sys2Proof.Machine

/-! ### The byte accesses of an instruction -/

/-- An instruction's effect is one word write, of the word it computes. -/
theorem effect_eq_memWrite (i : Instr) (s : State) :
    effect i s.data = memWrite s.data (destAddr i).toNat (resultWord i s) := by cases i <;> rfl

section

variable {s : State} {i : Instr}

/-- The read port shows bytes of data memory as they stand. -/
theorem read_of_mem_readPort {r : BitVec 30 × Byte} (h : r ∈ readPort s i) :
    r.1.toNat < 65536 ∧ Memory.read s.data r.1.toNat = r.2 := by
  obtain ⟨a, ha, rfl⟩ := List.mem_map.mp h
  have hlt := lt_of_mem_bytesRead ha
  rw [toNat_portAddr hlt]
  exact ⟨hlt, rfl⟩

/-- The write port shows bytes of data memory as the effect leaves them. -/
theorem read_effect_of_mem_writePort {w : BitVec 30 × Byte} (h : w ∈ writePort s i) :
    w.1.toNat < 65536 ∧ Memory.read (effect i s.data) w.1.toNat = w.2 := by
  obtain ⟨a, ha, rfl⟩ := List.mem_map.mp h
  have hlt := lt_of_mem_bytesWritten ha
  rw [toNat_portAddr hlt, effect_eq_memWrite, read_memWrite, if_pos ((mem_accessedBytes _ a).mp ha)]
  exact ⟨hlt, rfl⟩

/-- The effect changes no byte whose address the write port does not show. -/
theorem read_effect_of_forall_writePort_ne {a : Nat} (h : ∀ w ∈ writePort s i, w.1.toNat ≠ a) :
    Memory.read (effect i s.data) a = Memory.read s.data a := by
  have ha : a ∉ bytesWritten i := by
    rw [← addrs_writePort s i]
    intro hmem
    obtain ⟨w, hw, hwa⟩ := List.mem_map.mp hmem
    exact h w hw hwa
  rw [effect_eq_memWrite, read_memWrite, if_neg fun hin => ha ((mem_accessedBytes _ a).mpr hin)]

end

/-! ### What the ports show, with an instruction to execute and with none -/

section

variable {en : Bool} {s : State} {i : Instr}

theorem dataReads_of_pending (h : pendingInstr en s = some i) : (sequencerPorts en s).dataReads = readPort s i := by
  simp [sequencerPorts, h]

theorem dataWrites_of_pending (h : pendingInstr en s = some i) : (sequencerPorts en s).dataWrites = writePort s i := by
  simp [sequencerPorts, h]

theorem trace_of_pending (h : pendingInstr en s = some i) : (sequencerPorts en s).trace = tracePorts s (some i) := by
  simp [sequencerPorts, h]

/-- With no instruction to execute there is no access and no event. -/
theorem ports_of_not_pending (h : pendingInstr en s = none) :
    (sequencerPorts en s).dataReads = [] ∧ (sequencerPorts en s).dataWrites = [] ∧
      (sequencerPorts en s).trace.valid = false := by
  simp [sequencerPorts, tracePorts, h]

end

/-- The inversion of a tick: the pending instruction is executed, or there is none and neither trace nor data memory changes. -/
theorem tick_next_cases {en : Bool} {s t : State} (h : tick en s = .next t) :
    (∃ i, pendingInstr en s = some i ∧ en = true ∧ s.running = true ∧ fetch s = .ok i i.length ∧
      t = retired i (effect i s.data) s) ∨
    (pendingInstr en s = none ∧ (en = true → s.running = true → ∃ f, fetch s = .fail f) ∧
      t.trace = s.trace ∧ t.data = s.data) := by
  cases en with
  | false =>
    cases h
    exact .inr ⟨pendingInstr_disabled s, nofun, rfl, rfl⟩
  | true =>
    obtain ⟨hstop, rfl⟩ | ⟨-, f, hf, rfl⟩ | ⟨hr, i, hf, -, rfl⟩ := step_next_cases (show step s = .next t from h)
    · exact .inr ⟨pendingInstr_stopped true hstop, fun _ hr => by simp [hr] at hstop, rfl, rfl⟩
    · exact .inr ⟨pendingInstr_fail true hf, fun _ _ => ⟨f, hf⟩, rfl, rfl⟩
    · exact .inl ⟨i, pendingInstr_ok hr hf, rfl, hr, hf, rfl⟩

/-- The state meets the widths of its ports (10_state.md R12, R14). -/
theorem State.Inv.toNat_ports {s : State} (hs : s.Inv) (en : Bool) :
    (sequencerPorts en s).pc.toNat = s.pc ∧ (sequencerPorts en s).instructionsExecuted.toNat = s.instructionsExecuted ∧
      (s.pc < 65536 → (sequencerPorts en s).codeAddr.toNat = s.pc) := by
  have hpc : s.pc ≤ 65536 := hs.pc_le
  have hcount : s.instructionsExecuted ≤ 1000 := hs.count_le
  simp only [sequencerPorts, BitVec.toNat_ofNat]
  omega

/-- Settles O49: the ports that show the state do so by its bounds, the decoder block is fed the bytes at `pc`, and the data and
trace ports follow the instruction that the tick executes, if there is one. -/
theorem sequencerPortsShowTheStep : Obligations.SequencerPortsShowTheStep := by
  intro s t en hs h p
  obtain ⟨hpc, hcount, haddr⟩ := hs.toNat_ports en
  obtain ⟨hdecOk, hdecFail⟩ := decoderBlockComputesDecode (Memory.read s.code) s.pc 65536 (codeWindow s) hs.pc_le
    (Nat.sub_le _ _) fun k hk _ => winByte_codeWindow s hk
  have hhold : en = false → t = s := by
    rintro rfl
    cases h
    rfl
  refine ⟨hpc, hcount, rfl, rfl, rfl, haddr, toNat_availPort s, fun k hk _ => winByte_codeWindow s hk, hhold,
    fun i _ hf => hdecOk i i.length hf, fun f _ hf => (hdecFail f hf).1, ?_⟩
  obtain ⟨i, hpending, hen, hr, hf, rfl⟩ | ⟨hpending, hfail, htrace, hdata⟩ := tick_next_cases h
  · rw [show p.dataReads = _ from dataReads_of_pending hpending, show p.dataWrites = _ from dataWrites_of_pending hpending,
      show p.trace = _ from trace_of_pending hpending]
    refine ⟨fun j _ _ hfj => ?_, fun hidle => ?_, fun r => read_of_mem_readPort, fun w => read_effect_of_mem_writePort,
      fun a => read_effect_of_forall_writePort_ne⟩
    · cases hf.symm.trans hfj
      exact ⟨rfl, rfl, hpc, rfl, rfl, rfl, rfl, addrs_readPort s i, addrs_writePort s i⟩
    · simp [hen, hr, hf] at hidle
  · obtain ⟨hreads, hwrites, hvalid⟩ := ports_of_not_pending hpending
    rw [show p.dataReads = [] from hreads, show p.dataWrites = [] from hwrites]
    refine ⟨fun i hen hr hf => ?_, fun _ => ⟨htrace, hvalid, rfl, rfl⟩, nofun, nofun, fun a _ => by rw [hdata]⟩
    obtain ⟨f, hff⟩ := hfail hen hr
    cases hf.symm.trans hff

end Sys2Proof.Machine

/-! ## What an instruction writes, and what of data memory it depends on (42_load_const.md R120, 70_reset_and_hazards.md R182) -/

namespace Sys2Proof.Machine

/-! ### The result and the frame of an executed instruction -/

/-- The bytes of an immediate are those of the word it is stored as (20_memory.md R32). -/
theorem immByte_eq_wordByte (c : Imm) : immByte c = wordByte c := by
  funext k
  refine BitVec.eq_of_toNat_eq ?_
  simp [wordByte, immByte, Nat.shiftRight_eq_div_pow]

/-- `MemWrite` writes its word in the sense of the statements (20_memory.md R35). -/
theorem writesWord_memWrite (m : Memory) (a : Nat) (v : Word) : WritesWord a (wordByte v) m (memWrite m a v) :=
  read_memWrite m a v

/-- All that an executed instruction does beside its effect, whatever the effect (41_sequencer.md R104 to R106). -/
theorem retires_retired (i : Instr) (m : Memory) (s : State) : Retires i i.length s (retired i m s) where
  pc := rfl
  count := rfl
  trace := rfl
  code := rfl
  at_cap h := ⟨if_pos h, if_pos h⟩
  below_cap h := ⟨if_neg (Nat.not_le.mpr h), if_neg (Nat.not_le.mpr h)⟩

/-- Settles O18: LOAD_CONST retires with the write of its immediate, whose three bytes are those of the word. -/
theorem loadConstStoresItsImmediate : Obligations.LoadConstStoresItsImmediate := by
  intro b c s
  refine ⟨_, exec_eq_retired (.loadConst b c) s, ?_, retires_retired _ _ s⟩
  rw [immByte_eq_wordByte]
  exact writesWord_memWrite s.data b.toNat c

/-! ### The bytes read decide the word written -/

/-- At most two words are read, of at most three bytes each. -/
theorem length_bytesRead_le (i : Instr) : (bytesRead i).length ≤ 6 := by
  have hwords : (sourceAddrs i).length ≤ 2 := by cases i <;> simp [sourceAddrs]
  have hbytes : (bytesRead i).length ≤ (sourceAddrs i).length * 3 := by
    rw [bytesRead, List.length_flatMap, ← List.length_map (fun a => (accessedBytes a).length)]
    exact List.sum_le_card_nsmul _ 3 (List.forall_mem_map.mpr fun a _ => length_accessedBytes_le a)
  omega

/-- An operand in memory is decided by those of its bytes that lie below 65536. -/
theorem memoryOperand_congr {s t : State} {a : Addr}
    (h : ∀ x ∈ accessedBytes a, Memory.read s.data x = Memory.read t.data x) : memoryOperand a s = memoryOperand a t := by
  refine memRead_congr fun k hk => ?_
  rw [dataByte_eq, dataByte_eq]
  split
  next hin => exact h _ ((mem_accessedBytes a _).mpr ⟨by omega, by omega, hin⟩)
  next => rfl

/-- The word an instruction computes is decided by the bytes it reads. -/
theorem resultWord_congr {i : Instr} {s t : State}
    (h : ∀ x ∈ bytesRead i, Memory.read s.data x = Memory.read t.data x) : resultWord i s = resultWord i t := by
  have hsource : ∀ a ∈ sourceAddrs i, memoryOperand a s = memoryOperand a t := fun a ha =>
    memoryOperand_congr fun x hx => h x (List.mem_flatMap.mpr ⟨a, ha, hx⟩)
  cases i with
  | loadConst b c => rfl
  | readMem b c => exact hsource c (by simp [sourceAddrs])
  | writeMem b c => exact hsource b (by simp [sourceAddrs])
  | bitwiseOr b c d => exact congrArg₂ (· ||| ·) (hsource b (by simp [sourceAddrs])) (hsource c (by simp [sourceAddrs]))

/-- A byte written is its byte of the word computed. -/
theorem read_effect_of_mem_bytesWritten {i : Instr} {s : State} {a : Nat} (ha : a ∈ bytesWritten i) :
    Memory.read (effect i s.data) a = wordByte (resultWord i s) (a - (destAddr i).toNat) := by
  rw [effect_eq_memWrite, read_memWrite, if_pos ((mem_accessedBytes _ a).mp ha)]

theorem read_effect_of_not_mem_bytesWritten {i : Instr} {s : State} {a : Nat} (ha : a ∉ bytesWritten i) :
    Memory.read (effect i s.data) a = Memory.read s.data a := by
  rw [effect_eq_memWrite, read_memWrite, if_neg fun hin => ha ((mem_accessedBytes _ a).mpr hin)]

/-- Settles O47: each byte written is a byte of the word computed, which the bytes read decide. -/
theorem onlyTheBytesReadReachTheBytesWritten : Obligations.OnlyTheBytesReadReachTheBytesWritten := by
  intro i s t s' t' hs ht hread
  obtain rfl : retired i (effect i s.data) s = s' := by simpa [exec_eq_retired] using hs
  obtain rfl : retired i (effect i t.data) t = t' := by simpa [exec_eq_retired] using ht
  refine ⟨fun a ha => ?_, fun a ha => read_effect_of_not_mem_bytesWritten ha, length_bytesRead_le i,
    length_accessedBytes_le (destAddr i)⟩
  rw [retired_data, retired_data, read_effect_of_mem_bytesWritten ha, read_effect_of_mem_bytesWritten ha,
    resultWord_congr hread]

end Sys2Proof.Machine

/-! ## The two copies (43_mem_copy.md R125 to R128) -/

namespace Sys2Proof.Machine

/-- What is written is told by the first three bytes alone. -/
theorem WritesWord.congr {dst : Nat} {bytes bytes' : Nat → Byte} {before after : Memory}
    (h : WritesWord dst bytes before after) (hbytes : ∀ k, k < 3 → bytes k = bytes' k) :
    WritesWord dst bytes' before after := by
  intro a
  rw [h a]
  split
  next hin => exact hbytes _ (by omega)
  next => rfl

/-- The bytes of a word read, as the statements see them (20_memory.md R34). -/
theorem wordByte_memRead_eq_byteOrZero (m : Memory) (a : Nat) {k : Nat} (hk : k < 3) :
    wordByte (memRead m a) k = byteOrZero m (a + k) :=
  wordByte_memRead m a k hk

/-- Writing a word that was read before the write copies its three bytes, overlapping or not (43_mem_copy.md R128, D10, log 10). -/
theorem writesWord_memWrite_memRead (m : Memory) (dst src : Nat) :
    WritesWord dst (fun k => byteOrZero m (src + k)) m (memWrite m dst (memRead m src)) :=
  (writesWord_memWrite m dst (memRead m src)).congr fun _ hk => wordByte_memRead_eq_byteOrZero m src hk

/-- Settles O19: READ_MEM retires with the copy from C to B. -/
theorem readMemCopiesFromFieldCToFieldB : Obligations.ReadMemCopiesFromFieldCToFieldB := fun b c s =>
  ⟨_, exec_eq_retired (.readMem b c) s, writesWord_memWrite_memRead s.data b.toNat c.toNat, retires_retired _ _ s⟩

/-- Settles O20: WRITE_MEM retires with the copy from B to C. -/
theorem writeMemCopiesFromFieldBToFieldC : Obligations.WriteMemCopiesFromFieldBToFieldC := fun b c s =>
  ⟨_, exec_eq_retired (.writeMem b c) s, writesWord_memWrite_memRead s.data c.toNat b.toNat, retires_retired _ _ s⟩

/-- Settles O22: both retire with the same word write and the same length, so only the appended event tells them apart. -/
theorem readMemAndWriteMemAreMirrorImages : Obligations.ReadMemAndWriteMemAreMirrorImages := by
  intro x y s
  have heffect : effect (.writeMem y x) s.data = effect (.readMem x y) s.data := rfl
  refine ⟨_, exec_eq_retired (.readMem x y) s, ?_⟩
  rw [exec_eq_retired, heffect]
  rfl

/-- A word written where it was read changes no byte: a byte in bounds is written with itself, one beyond memory is skipped. -/
theorem read_memWrite_memRead_self (m : Memory) (b a : Nat) :
    Memory.read (memWrite m b (memRead m b)) a = Memory.read m a := by
  rw [writesWord_memWrite_memRead m b b a]
  split
  next hin =>
    obtain ⟨hle, -, hlt⟩ := hin
    beta_reduce
    rw [Nat.add_sub_cancel' hle, byteOrZero, if_pos hlt]
  next => rfl

/-- Settles O24: each of the three instructions writes the word at `b` back to `b`, the OR by idempotence. -/
theorem copyOntoItselfChangesNoByte : Obligations.CopyOntoItselfChangesNoByte := by
  intro b s t i hi h a
  obtain rfl : retired i (effect i s.data) s = t := by simpa [exec_eq_retired] using h
  have heffect : effect i s.data = memWrite s.data b.toNat (memRead s.data b.toNat) := by
    obtain rfl | rfl | rfl := hi
    · rfl
    · rfl
    · rw [effect, BitVec.or_self]
  rw [retired_data, heffect, read_memWrite_memRead_self]

end Sys2Proof.Machine

/-! ## The OR of two words (44_bitwise_or.md R135 to R137) -/

namespace Sys2Proof.Machine

/-- Writing the OR of two words read before the write writes the OR of their bytes, overlapping or not (44_bitwise_or.md R135,
D10, log 10). -/
theorem writesWord_memWrite_or (m : Memory) (dst src src' : Nat) :
    WritesWord dst (fun k => byteOrZero m (src + k) ||| byteOrZero m (src' + k)) m
      (memWrite m dst (memRead m src ||| memRead m src')) :=
  (writesWord_memWrite m dst (memRead m src ||| memRead m src')).congr fun k hk => by
    rw [wordByte_or, wordByte_memRead_eq_byteOrZero m src hk, wordByte_memRead_eq_byteOrZero m src' hk]

/-- Settles O21: BITWISE_OR retires with the write of the OR of the words at B and C. -/
theorem bitwiseOrStoresTheOrOfTwoWords : Obligations.BitwiseOrStoresTheOrOfTwoWords := fun b c d s =>
  ⟨_, exec_eq_retired (.bitwiseOr b c d) s, writesWord_memWrite_or s.data d.toNat b.toNat c.toNat, retires_retired _ _ s⟩

/-- A word wholly beyond memory reads as 0 (20_memory.md R34, D7, log 7). -/
theorem memRead_beyond (m : Memory) {a : Nat} (ha : 65536 ≤ a) : memRead m a = 0#24 := by
  refine word_eq_of_wordByte_eq fun i hi => ?_
  rw [wordByte_memRead m a i hi, dataByte_eq, if_neg (by omega)]
  simp [wordByte]

theorem effect_bitwiseOr_comm (b c d : Addr) (m : Memory) : effect (.bitwiseOr b c d) m = effect (.bitwiseOr c b d) m := by
  rw [effect, effect, BitVec.or_comm]

/-- An operand B that equals C, or that is absent, adds nothing to the word at C, which is then copied to D
(44_bitwise_or.md R137). -/
theorem effect_bitwiseOr_eq_effect_readMem {b c : Addr} (h : b = c ∨ 65536 ≤ b.toNat) (d : Addr) (m : Memory) :
    effect (.bitwiseOr b c d) m = effect (.readMem d c) m := by
  have hword : memRead m b.toNat ||| memRead m c.toNat = memRead m c.toNat := by
    obtain rfl | hbeyond := h
    · exact BitVec.or_self
    · rw [memRead_beyond m hbeyond, BitVec.zero_or]
  rw [effect, effect, hword]

/-- Settles O23: every instruction retires with its effect, and the effects are the same. -/
theorem bitwiseOrCommutesAndCopies : Obligations.BitwiseOrCommutesAndCopies := by
  intro b c d s t h
  obtain rfl : retired (.bitwiseOr b c d) (effect (.bitwiseOr b c d) s.data) s = t := by simpa [exec_eq_retired] using h
  exact ⟨⟨_, exec_eq_retired (.bitwiseOr c b d) s, effect_bitwiseOr_comm c b d s.data⟩,
    fun hcopy => ⟨_, exec_eq_retired (.readMem d c) s, (effect_bitwiseOr_eq_effect_readMem hcopy d s.data).symm⟩⟩

end Sys2Proof.Machine

/-! ## A stopped machine is final, and no step faults (60_exceptions.md R149, R151) -/

namespace Sys2Proof.Machine

/-- A stopped machine stays as it is over any number of steps (log 1). -/
theorem runFor_of_stopped {s : State} (hstop : s.running = false) (k : Nat) : runFor k s = .next s := by
  induction k with
  | zero => exact runFor_zero s
  | succ k ih => rw [runFor_succ k s s (step_of_stopped hstop), ih]

/-- Settles O29: either kind of stop leaves the machine not running, and then each step of the run answers the same state. -/
theorem stoppedMachineKeepsItsState : Obligations.StoppedMachineKeepsItsState := fun s k hstop =>
  runFor_of_stopped ((running_eq_false_iff s).mpr hstop) k

/-- Settles O31: each of the three kinds of step answers a next state. -/
theorem everyStepAnswersANextState : Obligations.EveryStepAnswersANextState :=
  exists_step_next

end Sys2Proof.Machine

/-! ## The host's load (70_reset_and_hazards.md R172, R173) -/

namespace Sys2Proof.Machine

/-- An image that fits code memory is loaded. -/
theorem loadImage_of_length_le {img : List Byte} (hfit : img.length ≤ 65536) :
    loadImage img = .next { State.reset with code := Memory.storeBytes Config.codeSize [] 0 img } :=
  if_pos hfit

/-- An image too long for code memory is refused (log 9). -/
theorem loadImage_of_length_gt {img : List Byte} (hlong : 65536 < img.length) : loadImage img = .refused .capacityError :=
  if_neg (Nat.not_le_of_gt hlong)

/-- The zero fill at address 0 has no opcode's tag (30_encoding.md R53). -/
theorem fetch_reset : fetch State.reset = .fail .unknownOpcode :=
  (decode_eq_unknownOpcode_iff (by decide)).mpr (by decide)

/-- Settles O36: the load writes the image's bytes to code memory alone, and the machine of an empty image is the reset
machine, whose first fetch meets the zero fill. -/
theorem imageIsLoadedVerbatimAtZero : Obligations.ImageIsLoadedVerbatimAtZero := by
  refine ⟨fun img hfit => ?_, State.reset, loadImage_of_length_le (Nat.zero_le _), ?_⟩
  · have hload := loadImage_of_length_le hfit
    exact ⟨_, hload, read_code_of_loadImage hload, rfl⟩
  · exact step_of_fetch_fail (by decide) fetch_reset

/-- Settles O37: either the image fits and is loaded, or it is too long and is refused. -/
theorem oversizeImageIsRefusedWhole : Obligations.OversizeImageIsRefusedWhole := by
  intro img
  refine ⟨⟨fun hrefused => ?_, loadImage_of_length_gt⟩, fun hfit => ⟨_, loadImage_of_length_le hfit⟩⟩
  by_contra hshort
  rw [loadImage_of_length_le (Nat.le_of_not_lt hshort)] at hrefused
  cases hrefused

end Sys2Proof.Machine

/-! ## What the host reads after a run (70_reset_and_hazards.md R177) -/

namespace Sys2Proof.Machine

/-- The dump holds one byte for each address of the range (none where `lo > hi`, log 19). -/
@[simp] theorem length_hostReport_dump (s : State) (lo hi : Nat) : (hostReport s lo hi).dump.length = hi - lo := by
  simp [hostReport]

/-- The dump shows the bytes of data memory in address order. -/
theorem getElem?_hostReport_dump (s : State) {lo hi k : Nat} (hk : k < hi - lo) :
    (hostReport s lo hi).dump[k]? = some (Memory.read s.data (lo + k)) := by
  simp [hostReport, hk]

/-- Settles O50: the report copies the four registers, and the dump is read byte by byte. -/
theorem hostReportShowsTheFinalState : Obligations.HostReportShowsTheFinalState := by
  intro s lo hi r
  exact ⟨rfl, rfl, rfl, rfl, length_hostReport_dump s lo hi, fun _ => getElem?_hostReport_dump s, rfl⟩

end Sys2Proof.Machine
